-- ==== Sys2Proof/Word.lean ====
section
/-! DEFINITION. The word types of the core. All values are unsigned (spec/00_scope.md section 6). -/

namespace Sys2Proof

/-- A memory cell, a general register or a timer: 8 bits (R10, R15, R17). -/
abbrev Byte := BitVec 8

/-- An instruction word, `I`, `pc` or a call-stack entry: 16 bits (R12, R13, R14, R50). -/
abbrev Word := BitVec 16

/-- A register index, the field `x` or `y`: 4 bits, every value names a register (R10, R51). -/
abbrev Reg := BitVec 4

/-- The 4-bit count `n` of DRW (R51). -/
abbrev Nibble := BitVec 4

/-- The 12-bit immediate address `nnn` (R51). -/
abbrev Addr := BitVec 12

/-- The sixteen key lines, bit `k` is 1 while key `k` is down (R148). -/
abbrev Keys := BitVec 16

end Sys2Proof
end

