-- ==== Sys2Proof/Config.lean ====
section
/-! DEFINITION. What is fixed for one machine: the parameters of spec/00_scope.md rules R2 and R3, and the free
values that stand for the key samples and the random bytes. -/

namespace Sys2Proof

/-- `MEM_SIZE` of R2: the number of memory cells. -/
abbrev memSize : Nat := 4096

/-- `PROGRAM_ORIGIN` of R2: where programs are loaded and execution starts. -/
abbrev programOrigin : Nat := 0x200

/-- `FONT_BASE` of R2: where construction seeds the font table. -/
abbrev fontBase : Nat := 0

/-- The mnemonics of spec/opcode_table.json, which `IMPLEMENTED` ranges over (R3, R63). -/
inductive Mnemonic where
  | sys | cls | ret | jp | call | seByte | sneByte | seReg | sneReg | ldByte | addByte
  | ldReg | orReg | andReg | xorReg | addReg | subReg | shr | subnReg | shl
  | ldI | jpV0 | rnd | drw | skp | sknp
  | ldVxDT | ldVxK | ldDTVx | ldSTVx | addIVx | ldFVx | ldBVx | ldMemVx | ldVxMem
  deriving DecidableEq, Repr

/-- `VF_ORDER` of R3: the order of the result and flag writes, which shows only when the destination is `VF`. -/
inductive VfOrder where
  /-- R91: operands read, result written, flag written last. -/
  | flagLast
  /-- The statement order of the source's table rows (93_implementation_defined.md, U3). -/
  | asListed
  deriving DecidableEq, Repr

/-- `STACK_DEPTH` of R3: how many return addresses the call stack holds. -/
inductive StackDepth where
  | entries (n : Nat)
  | unbounded
  deriving DecidableEq, Repr

/-- The open parameters of R3. `ADDR_POLICY` has the one value `mask12` and is built into `ea`. -/
structure Config where
  /-- `STACK_DEPTH` -/
  stackDepth : StackDepth
  /-- `TIMER_HZ` -/
  timerHz : Nat
  /-- `TS_PER_SEC` -/
  tsPerSec : Nat
  /-- `DISPLAY_W` -/
  displayW : Nat
  /-- `DISPLAY_H` -/
  displayH : Nat
  /-- `GLYPH_BYTES` -/
  glyphBytes : Nat
  /-- `FONT_TABLE` -/
  fontTable : List Byte
  /-- the mnemonics for which `IMPLEMENTED` is false -/
  unimplemented : List Mnemonic
  /-- `RESET_V` -/
  resetV : Byte
  /-- `RESET_I` -/
  resetI : Word
  /-- `RESET_DT` -/
  resetDT : Byte
  /-- `RESET_ST` -/
  resetST : Byte
  /-- `RESET_MEM_FILL` -/
  resetMemFill : Byte
  /-- `VF_ORDER` -/
  vfOrder : VfOrder
  deriving DecidableEq, Repr

/-- The glyphs 0 to 7 of the font table of R39 (PRESUMED, unsafe, log 4). -/
def Config.fontLow : List Byte :=
  [0xF0, 0x90, 0x90, 0x90, 0xF0,  0x20, 0x60, 0x20, 0x20, 0x70,
   0xF0, 0x10, 0xF0, 0x80, 0xF0,  0xF0, 0x10, 0xF0, 0x10, 0xF0,
   0x90, 0x90, 0xF0, 0x10, 0x10,  0xF0, 0x80, 0xF0, 0x10, 0xF0,
   0xF0, 0x80, 0xF0, 0x90, 0xF0,  0xF0, 0x10, 0x20, 0x40, 0x40]

/-- The glyphs 8 to F of the font table of R39 (PRESUMED, unsafe, log 4). -/
def Config.fontHigh : List Byte :=
  [0xF0, 0x90, 0xF0, 0x90, 0xF0,  0xF0, 0x90, 0xF0, 0x10, 0xF0,
   0xF0, 0x90, 0xF0, 0x90, 0x90,  0xE0, 0x90, 0xE0, 0x90, 0xE0,
   0xF0, 0x80, 0x80, 0x80, 0xF0,  0xE0, 0x90, 0x90, 0x90, 0xE0,
   0xF0, 0x80, 0xF0, 0x80, 0xF0,  0xF0, 0x80, 0xF0, 0x80, 0x80]

/-- The defaults of R3; the reset values are DESIGN CHOICE of the spec (D9), unsafe, log 3. -/
def Config.default : Config where
  stackDepth := .entries 16
  timerHz := 60
  tsPerSec := 1000
  displayW := 64
  displayH := 32
  glyphBytes := 5
  fontTable := Config.fontLow ++ Config.fontHigh
  unimplemented := []
  resetV := 0
  resetI := 0
  resetDT := 0
  resetST := 0
  resetMemFill := 0
  vfOrder := .flagLast

/-- FREE VALUE: the key lines seen by the `k`-th sample no host input was injected for (R148, U5; log 5). -/
opaque Config.keysDraw : Nat → Keys

/-- FREE VALUE: the `k`-th random byte no host input was injected for (R149, U4; log 5). -/
opaque Config.randomDraw : Nat → Byte

end Sys2Proof
end

