-- ==== Sys2Proof/Syntax.lean ====
section
/-! DEFINITION. The 35 instructions of spec/opcode_table.json, one constructor per row, with the fields of R51. -/

namespace Sys2Proof

/-- An instruction, in the order of the list in 30_encoding.md section 4. SYS, SHR and SHL keep the field they
ignore (R61), so that a word and its instruction determine each other. -/
inductive Instr where
  /-- SYS addr, `0x0nnn` but for 0x00E0 and 0x00EE (R80) -/
  | sys (nnn : Addr)
  /-- CLS, `0x00E0` (R116) -/
  | cls
  /-- RET, `0x00EE` (R81) -/
  | ret
  /-- JP addr, `0x1nnn` (R82) -/
  | jp (nnn : Addr)
  /-- CALL addr, `0x2nnn` (R83) -/
  | call (nnn : Addr)
  /-- SE Vx,byte, `0x3xkk` (R84) -/
  | seByte (x : Reg) (kk : Byte)
  /-- SNE Vx,byte, `0x4xkk` (R85) -/
  | sneByte (x : Reg) (kk : Byte)
  /-- SE Vx,Vy, `0x5xy0` (R86) -/
  | seReg (x y : Reg)
  /-- SNE Vx,Vy, `0x9xy0` (R87) -/
  | sneReg (x y : Reg)
  /-- LD Vx,byte, `0x6xkk` (R92) -/
  | ldByte (x : Reg) (kk : Byte)
  /-- ADD Vx,byte, `0x7xkk` (R93) -/
  | addByte (x : Reg) (kk : Byte)
  /-- LD Vx,Vy, `0x8xy0` (R94) -/
  | ldReg (x y : Reg)
  /-- OR Vx,Vy, `0x8xy1` (R95) -/
  | orReg (x y : Reg)
  /-- AND Vx,Vy, `0x8xy2` (R96) -/
  | andReg (x y : Reg)
  /-- XOR Vx,Vy, `0x8xy3` (R97) -/
  | xorReg (x y : Reg)
  /-- ADD Vx,Vy, `0x8xy4` (R98) -/
  | addReg (x y : Reg)
  /-- SUB Vx,Vy, `0x8xy5` (R99) -/
  | subReg (x y : Reg)
  /-- SHR Vx, `0x8xy6`, `y` ignored (R100) -/
  | shr (x y : Reg)
  /-- SUBN Vx,Vy, `0x8xy7` (R101) -/
  | subnReg (x y : Reg)
  /-- SHL Vx, `0x8xyE`, `y` ignored (R102) -/
  | shl (x y : Reg)
  /-- LD I,addr, `0xAnnn` (R105) -/
  | ldI (nnn : Addr)
  /-- JP V0,addr, `0xBnnn` (R88) -/
  | jpV0 (nnn : Addr)
  /-- RND Vx,byte, `0xCxkk` (R103) -/
  | rnd (x : Reg) (kk : Byte)
  /-- DRW Vx,Vy,n, `0xDxyn` (R117) -/
  | drw (x y : Reg) (n : Nibble)
  /-- SKP Vx, `0xEx9E` (R124) -/
  | skp (x : Reg)
  /-- SKNP Vx, `0xExA1` (R125) -/
  | sknp (x : Reg)
  /-- LD Vx,DT, `0xFx07` (R120) -/
  | ldVxDT (x : Reg)
  /-- LD Vx,K, `0xFx0A` (R121) -/
  | ldVxK (x : Reg)
  /-- LD DT,Vx, `0xFx15` (R122) -/
  | ldDTVx (x : Reg)
  /-- LD ST,Vx, `0xFx18` (R123) -/
  | ldSTVx (x : Reg)
  /-- ADD I,Vx, `0xFx1E` (R106) -/
  | addIVx (x : Reg)
  /-- LD F,Vx, `0xFx29` (R107) -/
  | ldFVx (x : Reg)
  /-- LD B,Vx, `0xFx33` (R108) -/
  | ldBVx (x : Reg)
  /-- LD [I],Vx, `0xFx55` (R109) -/
  | ldMemVx (x : Reg)
  /-- LD Vx,[I], `0xFx65` (R110) -/
  | ldVxMem (x : Reg)
  deriving DecidableEq, Repr

end Sys2Proof
end

