-- ==== Sys2Proof/WellFormed.lean ====
section
/-! DEFINITION. Which instructions are the meaning of some word, and which parameter records the rules make sense
for. -/

namespace Sys2Proof

/-- The fields of R51 cannot be out of range. The one check left is R55: the words 0x00E0 and 0x00EE are CLS and
RET, so SYS has neither as its address. -/
def Instr.wf : Instr → Bool
  | .sys nnn => nnn != 0x0E0 && nnn != 0x0EE
  | .cls | .ret | .jp _ | .call _ | .seByte _ _ | .sneByte _ _ | .seReg _ _ | .sneReg _ _ => true
  | .ldByte _ _ | .addByte _ _ | .ldReg _ _ | .orReg _ _ | .andReg _ _ | .xorReg _ _ => true
  | .addReg _ _ | .subReg _ _ | .shr _ _ | .subnReg _ _ | .shl _ _ => true
  | .ldI _ | .jpV0 _ | .rnd _ _ | .drw _ _ _ | .skp _ | .sknp _ => true
  | .ldVxDT _ | .ldVxK _ | .ldDTVx _ | .ldSTVx _ | .addIVx _ | .ldFVx _ | .ldBVx _ => true
  | .ldMemVx _ | .ldVxMem _ => true

/-- Parameters the rules divide by are positive (R117, R142; U9), and the font table fits in memory (R22). -/
def Config.wf (c : Config) : Bool :=
  decide (0 < c.displayW) && decide (0 < c.displayH) && decide (0 < c.timerHz) && decide (0 < c.tsPerSec) &&
    decide (c.fontTable.length ≤ memSize)

end Sys2Proof
end

