-- ==== Sys2Proof/Decode.lean ====
section
/-! DEFINITION. Decoding (spec/30_encoding.md, R50 to R63): total on any bytes, rejecting by name; after it the
encoder, written from the same patterns of section 4. -/

namespace Sys2Proof

/-- What a 16-bit word is (R72): one of the 35 instructions, or unrecognised (R60). -/
inductive Decoded where
  | instr (i : Instr)
  | unrecognised (w : Word)
  deriving DecidableEq, Repr

/-- `op`, `instr[15:12]` (R51). -/
def opField (w : Word) : BitVec 4 := w.extractLsb' 12 4

/-- `x`, `instr[11:8]` (R51). -/
def xField (w : Word) : Reg := w.extractLsb' 8 4

/-- `y`, `instr[7:4]` (R51). -/
def yField (w : Word) : Reg := w.extractLsb' 4 4

/-- `n`, `instr[3:0]` (R51). -/
def nField (w : Word) : Nibble := w.extractLsb' 0 4

/-- `kk`, `instr[7:0]` (R51). -/
def kkField (w : Word) : Byte := w.extractLsb' 0 8

/-- `nnn`, `instr[11:0]` (R51). -/
def nnnField (w : Word) : Addr := w.extractLsb' 0 12

/-- Class 0 (R55): CLS and RET by the whole word, every other word is SYS. -/
def decodeClass0 (w : Word) : Decoded :=
  if w = 0x00E0 then .instr .cls
  else if w = 0x00EE then .instr .ret
  else .instr (.sys (nnnField w))

/-- Class 5 (R56): the low nibble is 0. -/
def decodeClass5 (w : Word) : Decoded :=
  if nField w = 0 then .instr (.seReg (xField w) (yField w)) else .unrecognised w

/-- Class 8 (R57): the low nibble is the sub-opcode. -/
def decodeClass8 (w : Word) : Decoded :=
  match (nField w).toNat with
  | 0x0 => .instr (.ldReg (xField w) (yField w))
  | 0x1 => .instr (.orReg (xField w) (yField w))
  | 0x2 => .instr (.andReg (xField w) (yField w))
  | 0x3 => .instr (.xorReg (xField w) (yField w))
  | 0x4 => .instr (.addReg (xField w) (yField w))
  | 0x5 => .instr (.subReg (xField w) (yField w))
  | 0x6 => .instr (.shr (xField w) (yField w))
  | 0x7 => .instr (.subnReg (xField w) (yField w))
  | 0xE => .instr (.shl (xField w) (yField w))
  | _ => .unrecognised w

/-- Class 9 (R56): the low nibble is 0. -/
def decodeClass9 (w : Word) : Decoded :=
  if nField w = 0 then .instr (.sneReg (xField w) (yField w)) else .unrecognised w

/-- Class 0xE (R58): the low byte is the sub-opcode. -/
def decodeClassE (w : Word) : Decoded :=
  match (kkField w).toNat with
  | 0x9E => .instr (.skp (xField w))
  | 0xA1 => .instr (.sknp (xField w))
  | _ => .unrecognised w

/-- Class 0xF (R59): the low byte is the sub-opcode. -/
def decodeClassF (w : Word) : Decoded :=
  match (kkField w).toNat with
  | 0x07 => .instr (.ldVxDT (xField w))
  | 0x0A => .instr (.ldVxK (xField w))
  | 0x15 => .instr (.ldDTVx (xField w))
  | 0x18 => .instr (.ldSTVx (xField w))
  | 0x1E => .instr (.addIVx (xField w))
  | 0x29 => .instr (.ldFVx (xField w))
  | 0x33 => .instr (.ldBVx (xField w))
  | 0x55 => .instr (.ldMemVx (xField w))
  | 0x65 => .instr (.ldVxMem (xField w))
  | _ => .unrecognised w

/-- First-level dispatch on `op` (R54). -/
def decodeWord (w : Word) : Decoded :=
  match (opField w).toNat with
  | 0x0 => decodeClass0 w
  | 0x1 => .instr (.jp (nnnField w))
  | 0x2 => .instr (.call (nnnField w))
  | 0x3 => .instr (.seByte (xField w) (kkField w))
  | 0x4 => .instr (.sneByte (xField w) (kkField w))
  | 0x5 => decodeClass5 w
  | 0x6 => .instr (.ldByte (xField w) (kkField w))
  | 0x7 => .instr (.addByte (xField w) (kkField w))
  | 0x8 => decodeClass8 w
  | 0x9 => decodeClass9 w
  | 0xA => .instr (.ldI (nnnField w))
  | 0xB => .instr (.jpV0 (nnnField w))
  | 0xC => .instr (.rnd (xField w) (kkField w))
  | 0xD => .instr (.drw (xField w) (yField w) (nField w))
  | 0xE => decodeClassE w
  | 0xF => decodeClassF w
  | _ => .unrecognised w

/-- The instruction word made of the bytes at an address and the next: the first is the more significant
(R34, R41, R50). -/
def wordOfBytes (hi lo : Byte) : Word := hi ++ lo

/-- The more significant byte of a word, stored at the lower address (R41). -/
def highByte (w : Word) : Byte := w.extractLsb' 8 8

/-- The less significant byte of a word. -/
def lowByte (w : Word) : Byte := w.extractLsb' 0 8

/-- What decoding a sequence of bytes gives: the instruction or the refusal, with the bytes left over; or a name
for a sequence too short to hold a word. -/
inductive DecodedBytes where
  | word (d : Decoded) (rest : List Byte)
  | truncated
  deriving DecidableEq, Repr

/-- The instruction at the head of a sequence of bytes: every instruction is two bytes long (R50). -/
def decodeBytes : List Byte → DecodedBytes
  | hi :: lo :: rest => .word (decodeWord (wordOfBytes hi lo)) rest
  | _ => .truncated

/-- The word of an instruction, by the patterns of 30_encoding.md section 4. -/
def encode : Instr → Word
  | .sys nnn => 0x0#4 ++ nnn
  | .cls => 0x00E0
  | .ret => 0x00EE
  | .jp nnn => 0x1#4 ++ nnn
  | .call nnn => 0x2#4 ++ nnn
  | .seByte x kk => 0x3#4 ++ x ++ kk
  | .sneByte x kk => 0x4#4 ++ x ++ kk
  | .seReg x y => 0x5#4 ++ x ++ y ++ 0x0#4
  | .sneReg x y => 0x9#4 ++ x ++ y ++ 0x0#4
  | .ldByte x kk => 0x6#4 ++ x ++ kk
  | .addByte x kk => 0x7#4 ++ x ++ kk
  | .ldReg x y => 0x8#4 ++ x ++ y ++ 0x0#4
  | .orReg x y => 0x8#4 ++ x ++ y ++ 0x1#4
  | .andReg x y => 0x8#4 ++ x ++ y ++ 0x2#4
  | .xorReg x y => 0x8#4 ++ x ++ y ++ 0x3#4
  | .addReg x y => 0x8#4 ++ x ++ y ++ 0x4#4
  | .subReg x y => 0x8#4 ++ x ++ y ++ 0x5#4
  | .shr x y => 0x8#4 ++ x ++ y ++ 0x6#4
  | .subnReg x y => 0x8#4 ++ x ++ y ++ 0x7#4
  | .shl x y => 0x8#4 ++ x ++ y ++ 0xE#4
  | .ldI nnn => 0xA#4 ++ nnn
  | .jpV0 nnn => 0xB#4 ++ nnn
  | .rnd x kk => 0xC#4 ++ x ++ kk
  | .drw x y n => 0xD#4 ++ x ++ y ++ n
  | .skp x => 0xE#4 ++ x ++ 0x9E#8
  | .sknp x => 0xE#4 ++ x ++ 0xA1#8
  | .ldVxDT x => 0xF#4 ++ x ++ 0x07#8
  | .ldVxK x => 0xF#4 ++ x ++ 0x0A#8
  | .ldDTVx x => 0xF#4 ++ x ++ 0x15#8
  | .ldSTVx x => 0xF#4 ++ x ++ 0x18#8
  | .addIVx x => 0xF#4 ++ x ++ 0x1E#8
  | .ldFVx x => 0xF#4 ++ x ++ 0x29#8
  | .ldBVx x => 0xF#4 ++ x ++ 0x33#8
  | .ldMemVx x => 0xF#4 ++ x ++ 0x55#8
  | .ldVxMem x => 0xF#4 ++ x ++ 0x65#8

/-- The row of spec/opcode_table.json an instruction belongs to. -/
def Instr.mnemonic : Instr → Mnemonic
  | .sys _ => .sys
  | .cls => .cls
  | .ret => .ret
  | .jp _ => .jp
  | .call _ => .call
  | .seByte _ _ => .seByte
  | .sneByte _ _ => .sneByte
  | .seReg _ _ => .seReg
  | .sneReg _ _ => .sneReg
  | .ldByte _ _ => .ldByte
  | .addByte _ _ => .addByte
  | .ldReg _ _ => .ldReg
  | .orReg _ _ => .orReg
  | .andReg _ _ => .andReg
  | .xorReg _ _ => .xorReg
  | .addReg _ _ => .addReg
  | .subReg _ _ => .subReg
  | .shr _ _ => .shr
  | .subnReg _ _ => .subnReg
  | .shl _ _ => .shl
  | .ldI _ => .ldI
  | .jpV0 _ => .jpV0
  | .rnd _ _ => .rnd
  | .drw _ _ _ => .drw
  | .skp _ => .skp
  | .sknp _ => .sknp
  | .ldVxDT _ => .ldVxDT
  | .ldVxK _ => .ldVxK
  | .ldDTVx _ => .ldDTVx
  | .ldSTVx _ => .ldSTVx
  | .addIVx _ => .addIVx
  | .ldFVx _ => .ldFVx
  | .ldBVx _ => .ldBVx
  | .ldMemVx _ => .ldMemVx
  | .ldVxMem _ => .ldVxMem

/-- `IMPLEMENTED(m)` (R3, R63). -/
def Config.implements (c : Config) (m : Mnemonic) : Bool := !c.unimplemented.contains m

/-- The instruction a machine with these parameters runs for a word, none where the word is unrecognised: it
matches no row, or its mnemonic is not implemented (R63, R74). -/
def admitted (c : Config) (w : Word) : Option Instr :=
  match decodeWord w with
  | .instr i => if c.implements i.mnemonic then some i else none
  | .unrecognised _ => none

/-- The word spec/opcode_table.json numbers from bit 0, its bits from `nbits` up being 0. -/
def tableWord (nbits w : Nat) : Word := BitVec.ofNat 16 (w % 2 ^ nbits)

/-- The decoder's answer to a word of the opcode table laid out in memory order, high byte first (R50). -/
def decodeTableWord (nbits w : Nat) : Option Instr :=
  match decodeBytes [highByte (tableWord nbits w), lowByte (tableWord nbits w)] with
  | .word (.instr i) _ => some i
  | .word (.unrecognised _) _ => none
  | .truncated => none

end Sys2Proof
end

