-- ==== Sys2Proof/Machine/State.lean ====
section
/-! DEFINITION. The state of the core (spec/10_state.md), of the reference display (R147) and of the input side,
as plain data; the faults; the state after reset. -/

namespace Sys2Proof.Machine

/-- Why a run is over: the three faults of R130. A step that raises one answers the next state, whose latch holds
it (R136); `step` on a latched state answers `Outcome.fault` with the latched value, for no transition is
left (R137). Safe: the state a fault leaves is the state R136 gives. -/
inductive Fault where
  /-- Raised by a step whose word is unrecognised, carrying the word (R74, R131); safe. -/
  | unrecognizedOpcode (w : Word)
  /-- Raised by RET with an empty call stack (R81, R132); safe. -/
  | stackUnderflow
  /-- Raised by CALL with a full call stack (R83, R133); safe. -/
  | stackOverflow
  deriving DecidableEq, Repr

/-- Why the model gives no meaning. Nothing raises one: every instruction has its meaning. -/
inductive Refusal where
  /-- An arm of `exec` without a meaning; there is none. Safe. -/
  | notModelled (mnemonic : String)
  deriving DecidableEq, Repr

/-- Memory as the cells that differ from their reset contents, addresses strictly rising (R17, R30). -/
abbrev Memory := List Host.Cell

/-- What an unlisted address reads as: the reset contents of R22 and R39, the font and then zeros
(PRESUMED and DESIGN CHOICE, unsafe, log 3 and log 4). -/
def Memory.unlisted (a : Nat) : Byte := Config.default.fontTable.getD a Config.default.resetMemFill

/-- A request to the display-effects collaborator (R146). -/
inductive DisplayCall where
  | clear
  | setPixel (x y : Nat) (on : Bool)
  deriving DecidableEq, Repr

/-- The reference display device of R147. -/
structure Display where
  /-- the frame buffer: row `y`, then column `x` -/
  fb : List (List Bool)
  /-- the requests received so far, oldest first (the model's own record, log 7) -/
  calls : List DisplayCall
  deriving DecidableEq, Repr

/-- The input side: the key lines and the random bytes, which are draws of a step (R148, R149; log 5). -/
structure Inputs where
  /-- key samples the host has injected, the next one first -/
  keyQueue : List Keys
  /-- how many key samples have been drawn -/
  keyDraws : Nat
  /-- random bytes the host has injected, the next one first -/
  rndQueue : List Byte
  /-- how many random bytes have been drawn -/
  rndDraws : Nat
  deriving DecidableEq, Repr

/-- The whole state: the elements of the table at the head of 10_state.md, the reference display, the input side
and the parameters. -/
structure State where
  /-- the parameters of R3, fixed at construction (log 1) -/
  cfg : Config
  /-- `V[0..15]` (R10); `VF` is `V[15]` (R11) -/
  v : Vector Byte 16
  /-- `I` (R12) -/
  i : Word
  /-- `pc` (R13) -/
  pc : Word
  /-- `stack` (R14), oldest entry first -/
  stack : List Word
  /-- `DT` (R15) -/
  dt : Byte
  /-- `ST` (R16) -/
  st : Byte
  /-- `Mem` (R17) -/
  mem : Memory
  /-- `tick_origin` (R18) -/
  tickOrigin : Option Nat
  /-- `ticks_done` (R18) -/
  ticksDone : Nat
  /-- `fault`, the latch (R19) -/
  fault : Option Fault
  /-- the display device (R147) -/
  display : Display
  /-- the draws (R148, R149) -/
  inputs : Inputs
  deriving DecidableEq, Repr

/-- The frame buffer with every pixel off (R147). -/
def Display.blank (w h : Nat) : List (List Bool) := List.replicate h (List.replicate w false)

/-- The display device before any request (R147). -/
def Display.initial (c : Config) : Display := ⟨Display.blank c.displayW c.displayH, []⟩

/-- No input injected and none drawn (log 6). -/
def Inputs.initial : Inputs := ⟨[], 0, [], 0⟩

/-- Reset, which is construction with the default parameters (R22, R160, R161). -/
def State.reset : State where
  cfg := Config.default
  v := Vector.replicate 16 Config.default.resetV
  i := Config.default.resetI
  pc := 0x200
  stack := []
  dt := Config.default.resetDT
  st := Config.default.resetST
  mem := []
  tickOrigin := none
  ticksDone := 0
  fault := none
  display := Display.initial Config.default
  inputs := Inputs.initial

end Sys2Proof.Machine
end

