-- ==== Sys2Proof/Machine/Ops.lean ====
section
/-! DEFINITION. The named operations over memory, registers, the call stack, the display, the draws, fetching and
faults, which every meaning is written over. -/

namespace Sys2Proof.Machine

/-! Memory (spec/20_memory.md). -/

/-- `EA(a)`: every address is reduced modulo 4096 (R31). -/
def ea (a : Nat) : Nat := a % memSize

/-- The byte listed for an address, if one is. -/
def Memory.lookup : Memory → Nat → Option Byte
  | [], _ => none
  | (k, b) :: rest, a => if k = a then some b else Memory.lookup rest a

/-- The contents of cell `a`. -/
def Memory.get (m : Memory) (a : Nat) : Byte := (Memory.lookup m a).getD (Memory.unlisted a)

/-- `m` with the cell `a` no longer listed. -/
def Memory.erase (m : Memory) (a : Nat) : Memory := m.filter (fun c => c.1 != a)

/-- `m` with an entry for `a` put before the first larger address. -/
def Memory.insert : Memory → Nat → Byte → Memory
  | [], a, b => [(a, b)]
  | c :: rest, a, b => if a < c.1 then (a, b) :: c :: rest else c :: Memory.insert rest a b

/-- `m` with cell `a` holding `b`, in canonical form: an entry is listed only where it differs from the reset
contents. -/
def Memory.set (m : Memory) (a : Nat) (b : Byte) : Memory :=
  if b = Memory.unlisted a then Memory.erase m a else Memory.insert (Memory.erase m a) a b

/-- The canonical form: addresses strictly rising and below 4096, no entry equal to the reset contents. -/
abbrev Memory.wf (m : Memory) : Prop :=
  m.Pairwise (fun c d => c.1 < d.1) ∧ ∀ c ∈ m, c.1 < memSize ∧ c.2 ≠ Memory.unlisted c.1

/-- `MemRead(a, 1)` (R32). -/
def memRead1 (m : Memory) (a : Nat) : Byte := Memory.get m (ea a)

/-- `MemRead(a, 2)`: big-endian, each byte's address reduced separately (R34). -/
def memRead2 (m : Memory) (a : Nat) : Word := wordOfBytes (memRead1 m a) (memRead1 m (a + 1))

/-- `MemWrite(a, 1, v)`: stores `v & 0xFF` (R33). -/
def memWrite1 (m : Memory) (a v : Nat) : Memory := Memory.set m (ea a) (BitVec.ofNat 8 v)

/-- `MemWrite(a, 2, v)`: the high byte at `a`, then the low byte at `a + 1` (R35). -/
def memWrite2 (m : Memory) (a v : Nat) : Memory := memWrite1 (memWrite1 m a (v >>> 8)) (a + 1) v

/-- `BulkWrite(a, bytes)`: in order, each masked to 8 bits, each address reduced (R36). -/
def bulkWrite (m : Memory) (a : Nat) : List Nat → Memory
  | [] => m
  | b :: rest => bulkWrite (memWrite1 m a b) (a + 1) rest

/-! Writing one element of the state. -/

/-- `V[x]` (R10). -/
def State.getV (s : State) (x : Reg) : Byte := s.v[x.toNat]'x.isLt

/-- `V[x] <- b` (R10). -/
def State.setV (s : State) (x : Reg) (b : Byte) : State := { s with v := s.v.set x.toNat b x.isLt }

/-- `I <- w` (R12). -/
def State.setI (s : State) (w : Word) : State := { s with i := w }

/-- `pc <- w`; the value is not reduced to 12 bits (R13). -/
def State.setPc (s : State) (w : Word) : State := { s with pc := w }

/-- The call stack replaced (R14). -/
def State.setStack (s : State) (l : List Word) : State := { s with stack := l }

/-- `DT <- b` (R15). -/
def State.setDT (s : State) (b : Byte) : State := { s with dt := b }

/-- `ST <- b` (R16). -/
def State.setST (s : State) (b : Byte) : State := { s with st := b }

/-- The memory replaced (R17). -/
def State.setMem (s : State) (m : Memory) : State := { s with mem := m }

/-- The tick bookkeeping replaced (R18). -/
def State.setTick (s : State) (origin : Option Nat) (done : Nat) : State :=
  { s with tickOrigin := origin, ticksDone := done }

/-- The display device's state replaced (R147). -/
def State.setDisplay (s : State) (d : Display) : State := { s with display := d }

/-- The input side replaced (R148, R149). -/
def State.setInputs (s : State) (inp : Inputs) : State := { s with inputs := inp }

/-- `raise F`: the latch is set and nothing else happens (R136). THE one operation that takes a fault: there is no
handler, no saved register, no mode to change, and no return (R136, R137, R140). -/
def State.raise (s : State) (f : Fault) : State := { s with fault := some f }

/-- The fault codes of R130, labels that appear in no machine state (D32). -/
def Fault.code : Fault → Nat
  | .unrecognizedOpcode _ => 1
  | .stackUnderflow => 2
  | .stackOverflow => 3

/-- `MemRead(a, 1)` in a state. -/
def State.read1 (s : State) (a : Nat) : Byte := memRead1 s.mem a

/-! The program counter (R13, R71, R75). -/

/-- `pc <- (pc + 2) mod 65536`: the fetch increment (R71), and a skip (R75). -/
def State.advancePc (s : State) : State := s.setPc (s.pc + 2)

/-- A skip where the condition holds (R84 to R87, R124, R125). -/
def State.skipIf (s : State) (c : Bool) : State := if c then s.advancePc else s

/-- `pc <- (pc - 2) mod 65536`: the same instruction again at the next step (R75, R121). -/
def State.retryPc (s : State) : State := s.setPc (s.pc - 2)

/-- `instr <- MemRead(pc, 2)` (R71). -/
def State.fetchWord (s : State) : Word := memRead2 s.mem s.pc.toNat

/-- The state with the word `w` stored where the next step fetches it. -/
def State.placeWord (s : State) (w : Word) : State := s.setMem (memWrite2 s.mem s.pc.toNat w.toNat)

/-! The call stack (R14). -/

/-- CALL's test: the stack holds `STACK_DEPTH` entries; never so when the depth is unbounded (R83; log 9). -/
def State.stackFull (s : State) : Bool :=
  match s.cfg.stackDepth with
  | .entries n => s.stack.length == n
  | .unbounded => false

/-- `push(v)`: `v` becomes the newest entry. -/
def State.push (s : State) (w : Word) : State := s.setStack (s.stack ++ [w])

/-- RET's move: StackUnderflow on an empty stack, else `pc <- pop()` (R81). -/
def State.returnFromCall (s : State) : State :=
  match s.stack.getLast? with
  | none => s.raise .stackUnderflow
  | some w => (s.setStack s.stack.dropLast).setPc w

/-- CALL's move: StackOverflow on a full stack, else `push(pc)` and `pc <- target` (R83). -/
def State.callTo (s : State) (target : Word) : State :=
  if s.stackFull then s.raise .stackOverflow else (s.push s.pc).setPc target

/-! Moving several bytes between registers and memory (R109, R110). -/

/-- `V[0]` to `V[x]`, in order, as the numbers LD [I],Vx stores. -/
def State.regBytes (s : State) (x : Reg) : List Nat :=
  (List.range (x.toNat + 1)).map (fun k => (s.getV (BitVec.ofNat 4 k)).toNat)

/-- The first `n` transfers of LD Vx,[I]: `V[k] <- MemRead(a + k, 1)` for `k = 0 .. n-1` in this order. Memory is
read in `s`, for no transfer changes it (R110). -/
def State.loadRegs (s : State) (a : Nat) : Nat → State
  | 0 => s
  | n + 1 => (s.loadRegs a n).setV (BitVec.ofNat 4 n) (s.read1 (a + n))

/-! The display device (R146, R147). -/

/-- The pixel at column `x`, row `y`; a place outside the frame buffer holds no pixel (log 11). -/
def Display.pixel (d : Display) (x y : Nat) : Bool := ((d.fb.getD y []).getD x false)

/-- The frame buffer with the pixel at column `x`, row `y` toggled. -/
def Display.toggled (d : Display) (x y : Nat) : List (List Bool) :=
  d.fb.modify y (fun row => row.modify x (fun p => !p))

/-- `clear()`: every bit becomes 0 (R147). -/
def Display.clear (d : Display) : Display :=
  { fb := d.fb.map (fun row => row.map (fun _ => false)), calls := d.calls ++ [.clear] }

/-- One pixel request: column, row, `on`. -/
structure PixelReq where
  x : Nat
  y : Nat
  on : Bool
  deriving DecidableEq, Repr

/-- The request as the device receives it (R146). -/
def PixelReq.call (p : PixelReq) : DisplayCall := .setPixel p.x p.y p.on

/-- `setPixel(x, y, on)`: a 1 toggles the pixel and collides if it was lit, a 0 changes nothing (R147). -/
def Display.setPixel (d : Display) (p : PixelReq) : Bool × Display :=
  (p.on && d.pixel p.x p.y,
    { fb := if p.on then d.toggled p.x p.y else d.fb, calls := d.calls ++ [p.call] })

/-- A sequence of requests in order; the flag starts as `c` and becomes `true` where one collides (R117). -/
def Display.draw (d : Display) (c : Bool) : List PixelReq → Bool × Display
  | [] => (c, d)
  | p :: rest => (d.setPixel p).2.draw (c || (d.setPixel p).1) rest

/-- The requests of one sprite row: `b`'s bits from 7 to 0 at columns `x0 ..`, each wrapped (R117). -/
def rowPixels (c : Config) (x0 row : Nat) (b : Byte) : List PixelReq :=
  (List.range 8).map (fun j => ⟨(x0 + j) % c.displayW, row, b.getLsbD (7 - j)⟩)

/-- The requests of DRW: `n` rows read from `I`, in row-major order, each coordinate wrapped (R117, R111). -/
def State.spritePixels (s : State) (x y : Reg) (n : Nibble) : List PixelReq :=
  (List.range n.toNat).flatMap (fun r =>
    rowPixels s.cfg ((s.getV x).toNat % s.cfg.displayW)
      (((s.getV y).toNat % s.cfg.displayH + r) % s.cfg.displayH) (s.read1 (s.i.toNat + r)))

/-! The draws (R148, R149; log 5). -/

/-- The next sample of the key lines: an injected one, else a free value. -/
def Inputs.keys (inp : Inputs) : Keys := inp.keyQueue.headD (Config.keysDraw inp.keyDraws)

/-- The input side after one key sample. -/
def Inputs.afterKeys (inp : Inputs) : Inputs :=
  { inp with keyQueue := inp.keyQueue.tail, keyDraws := inp.keyDraws + 1 }

/-- The next random byte: an injected one, else a free value. -/
def Inputs.randomByte (inp : Inputs) : Byte := inp.rndQueue.headD (Config.randomDraw inp.rndDraws)

/-- The input side after one random byte. -/
def Inputs.afterRandom (inp : Inputs) : Inputs :=
  { inp with rndQueue := inp.rndQueue.tail, rndDraws := inp.rndDraws + 1 }

/-- `Keys` as this step samples it (R148). -/
def State.keys (s : State) : Keys := s.inputs.keys

/-- The state after one sample of the key lines. -/
def State.sampledKeys (s : State) : State := s.setInputs s.inputs.afterKeys

/-- `RandomByte()` as this step draws it (R149). -/
def State.randomByte (s : State) : Byte := s.inputs.randomByte

/-- The state after one random byte was drawn. -/
def State.drewRandom (s : State) : State := s.setInputs s.inputs.afterRandom

/-- The least `k` from `k0` on, among `n` keys, that is down; `k0 + n` if none is. -/
def leastKeyFrom (keys : Keys) (k0 : Nat) : Nat → Nat
  | 0 => k0
  | n + 1 => if keys.getLsbD k0 then k0 else leastKeyFrom keys (k0 + 1) n

/-- The least key that is down (R121, D17). -/
def leastKey (keys : Keys) : Nat := leastKeyFrom keys 0 16

end Sys2Proof.Machine
end

