-- ==== Sys2Proof/Machine/Operands.lean ====
section
/-! DEFINITION. The operand forms: immediates (R53), the one addressing mode (R111), key and glyph indices (D18),
decimal digits (R108). -/

namespace Sys2Proof.Machine

/-- `zext_16(nnn)` (R53). -/
def immAddr (nnn : Addr) : Word := nnn.setWidth 16

/-- `kk` as an 8-bit operand (R53). -/
def immByte (kk : Byte) : Byte := kk

/-- `V[0] + nnn`, at most 0x10FE, unreduced (R88). -/
def State.v0Target (s : State) (nnn : Addr) : Word := BitVec.ofNat 16 ((s.getV 0).toNat + nnn.toNat)

/-- The base `I` of the addressing mode `EA(I + k)`; memory reduces each `I + k` itself (R111). -/
def State.dataBase (s : State) : Nat := s.i.toNat

/-- `(I + V[x]) mod 65536` (R106). -/
def State.indexSum (s : State) (x : Reg) : Word := s.i + (s.getV x).setWidth 16

/-- The low nibble of `V[x]`: a key or glyph index (D18). -/
def State.nibbleIndex (s : State) (x : Reg) : Nat := (s.getV x).toNat % 16

/-- The address of the glyph `V[x] & 0xF`, in the 16 bits of `I` (R107; log 11). -/
def State.glyphAddr (s : State) (x : Reg) : Word :=
  BitVec.ofNat 16 (fontBase + s.cfg.glyphBytes * s.nibbleIndex x)

/-- The three decimal digits of a byte, most significant first (R108). -/
def bcdDigits (b : Byte) : List Nat := [b.toNat / 100, (b.toNat / 10) % 10, b.toNat % 10]

/-- Whether the key that `V[x]` names is down in this step's sample (R124, R125). -/
def State.keyDown (s : State) (x : Reg) : Bool := s.keys.getLsbD (s.nibbleIndex x)

end Sys2Proof.Machine
end

