-- ==== Sys2Proof/Machine/Flags.lean ====
section
/-! DEFINITION. The flag values of `VF` (R11) and the order of the result and flag writes (R91, U3). -/

namespace Sys2Proof.Machine

/-- `VF`, register 15 (R11). -/
abbrev vf : Reg := 0xF

/-- A flag is 0 or 1 (R11). -/
def flagByte (c : Bool) : Byte := if c then 1 else 0

/-- ADD Vx,Vy: 1 if the 9-bit sum exceeds 0xFF (R98). -/
def carryFlag (a b : Byte) : Byte := flagByte (decide (0xFF < a.toNat + b.toNat))

/-- SUB and SUBN: 1 if `a - b` needs no borrow (R90, R99, R101). -/
def noBorrowFlag (a b : Byte) : Byte := flagByte (decide (b.toNat ≤ a.toNat))

/-- SHR: the bit shifted out, bit 0 (R100). -/
def lowBitFlag (t : Byte) : Byte := flagByte (t.getLsbD 0)

/-- SHL: the bit shifted out, bit 7 (R102). -/
def highBitFlag (t : Byte) : Byte := flagByte (t.getLsbD 7)

/-- The result to `V[x]`, then the flag to `VF` (R91). -/
def State.resultThenFlag (s : State) (x : Reg) (r f : Byte) : State := (s.setV x r).setV vf f

/-- The flag to `VF`, then the result to `V[x]` (U3; log 10). -/
def State.flagThenResult (s : State) (x : Reg) (r f : Byte) : State := (s.setV vf f).setV x r

/-- SUB and SUBN's writes, both operands having been read (R91, U3). -/
def State.writeDifference (s : State) (x : Reg) (r f : Byte) : State :=
  match s.cfg.vfOrder with
  | .flagLast => s.resultThenFlag x r f
  | .asListed => s.flagThenResult x r f

/-- SHR and SHL's writes: `flagLast` shifts the operand read before any write, `asListed` shifts what `V[x]` holds
after the flag was written (R91, U3; log 10). -/
def State.writeShift (s : State) (x : Reg) (shift flag : Byte → Byte) : State :=
  match s.cfg.vfOrder with
  | .flagLast => s.resultThenFlag x (shift (s.getV x)) (flag (s.getV x))
  | .asListed => s.flagThenResult x (shift ((s.setV vf (flag (s.getV x))).getV x)) (flag (s.getV x))

end Sys2Proof.Machine
end

