-- ==== Sys2Proof/Machine/Alu.lean ====
section
/-! DEFINITION. Register load, arithmetic, logic, shift and random instructions (spec/42_alu.md). Arithmetic is
unsigned and wraps modulo 256 (R90). -/

namespace Sys2Proof.Machine

/-- LD Vx,byte: `V[x] <- kk` (R92). -/
def execLdByte (x : Reg) (kk : Byte) (s : State) : Host.Outcome State Fault Refusal :=
  .next (s.setV x (immByte kk))

/-- ADD Vx,byte: `V[x] <- (V[x] + kk) & 0xFF`, `VF` not written as a flag (R93). -/
def execAddByte (x : Reg) (kk : Byte) (s : State) : Host.Outcome State Fault Refusal :=
  .next (s.setV x (s.getV x + immByte kk))

/-- LD Vx,Vy: `V[x] <- V[y]` (R94). -/
def execLdReg (x y : Reg) (s : State) : Host.Outcome State Fault Refusal := .next (s.setV x (s.getV y))

/-- OR Vx,Vy: bitwise, no flag (R95). -/
def execOrReg (x y : Reg) (s : State) : Host.Outcome State Fault Refusal :=
  .next (s.setV x (s.getV x ||| s.getV y))

/-- AND Vx,Vy: bitwise, no flag (R96). -/
def execAndReg (x y : Reg) (s : State) : Host.Outcome State Fault Refusal :=
  .next (s.setV x (s.getV x &&& s.getV y))

/-- XOR Vx,Vy: bitwise, no flag (R97). -/
def execXorReg (x y : Reg) (s : State) : Host.Outcome State Fault Refusal :=
  .next (s.setV x (s.getV x ^^^ s.getV y))

/-- ADD Vx,Vy: the low 8 bits of the sum, then the carry; both values of VF_ORDER agree here (R98, U3). -/
def execAddReg (x y : Reg) (s : State) : Host.Outcome State Fault Refusal :=
  .next (s.resultThenFlag x (s.getV x + s.getV y) (carryFlag (s.getV x) (s.getV y)))

/-- SUB Vx,Vy: `(V[x] - V[y]) mod 256` and the no-borrow flag (R99). -/
def execSubReg (x y : Reg) (s : State) : Host.Outcome State Fault Refusal :=
  .next (s.writeDifference x (s.getV x - s.getV y) (noBorrowFlag (s.getV x) (s.getV y)))

/-- SHR Vx: one position right, bit 0 to `VF`; `y` is not read (R100, R61). -/
def execShr (x _y : Reg) (s : State) : Host.Outcome State Fault Refusal :=
  .next (s.writeShift x (fun t => t >>> 1) lowBitFlag)

/-- SUBN Vx,Vy: `(V[y] - V[x]) mod 256` and the no-borrow flag (R101). -/
def execSubnReg (x y : Reg) (s : State) : Host.Outcome State Fault Refusal :=
  .next (s.writeDifference x (s.getV y - s.getV x) (noBorrowFlag (s.getV y) (s.getV x)))

/-- SHL Vx: one position left, bit 7 to `VF`; `y` is not read (R102, R61). -/
def execShl (x _y : Reg) (s : State) : Host.Outcome State Fault Refusal :=
  .next (s.writeShift x (fun t => t <<< 1) highBitFlag)

/-- RND Vx,byte: one random byte is drawn, `V[x] <- r & kk` (R103). -/
def execRnd (x : Reg) (kk : Byte) (s : State) : Host.Outcome State Fault Refusal :=
  .next (s.drewRandom.setV x (s.randomByte &&& immByte kk))

end Sys2Proof.Machine
end

