-- ==== Sys2Proof/Machine/Control.lean ====
section
/-! DEFINITION. The control transfer instructions (spec/41_control_transfer.md). In every meaning `pc` is already
the address of the next sequential instruction (R75). -/

namespace Sys2Proof.Machine

/-- SYS addr: nothing (R80). -/
def execSys (_nnn : Addr) (s : State) : Host.Outcome State Fault Refusal := .next s

/-- RET: `pc <- pop()`, or StackUnderflow (R81). -/
def execRet (s : State) : Host.Outcome State Fault Refusal := .next s.returnFromCall

/-- JP addr: `pc <- zext_16(nnn)` (R82). -/
def execJp (nnn : Addr) (s : State) : Host.Outcome State Fault Refusal := .next (s.setPc (immAddr nnn))

/-- CALL addr: `push(pc)` and `pc <- zext_16(nnn)`, or StackOverflow (R83). -/
def execCall (nnn : Addr) (s : State) : Host.Outcome State Fault Refusal := .next (s.callTo (immAddr nnn))

/-- SE Vx,byte: skip if `V[x] = kk` (R84). -/
def execSeByte (x : Reg) (kk : Byte) (s : State) : Host.Outcome State Fault Refusal :=
  .next (s.skipIf (s.getV x == immByte kk))

/-- SNE Vx,byte: skip if `V[x] != kk` (R85). -/
def execSneByte (x : Reg) (kk : Byte) (s : State) : Host.Outcome State Fault Refusal :=
  .next (s.skipIf (s.getV x != immByte kk))

/-- SE Vx,Vy: skip if `V[x] = V[y]` (R86). -/
def execSeReg (x y : Reg) (s : State) : Host.Outcome State Fault Refusal :=
  .next (s.skipIf (s.getV x == s.getV y))

/-- SNE Vx,Vy: skip if `V[x] != V[y]` (R87). -/
def execSneReg (x y : Reg) (s : State) : Host.Outcome State Fault Refusal :=
  .next (s.skipIf (s.getV x != s.getV y))

/-- JP V0,addr: `pc <- V[0] + nnn` (R88). -/
def execJpV0 (nnn : Addr) (s : State) : Host.Outcome State Fault Refusal := .next (s.setPc (s.v0Target nnn))

end Sys2Proof.Machine
end

