-- ==== Sys2Proof/Machine/IndexMemory.lean ====
section
/-! DEFINITION. Index register and memory instructions (spec/43_index_memory.md). No access changes `I` (R111). -/

namespace Sys2Proof.Machine

/-- LD I,addr: `I <- zext_16(nnn)` (R105). -/
def execLdI (nnn : Addr) (s : State) : Host.Outcome State Fault Refusal := .next (s.setI (immAddr nnn))

/-- ADD I,Vx: `I <- (I + V[x]) mod 65536`, `VF` not written (R106). -/
def execAddIVx (x : Reg) (s : State) : Host.Outcome State Fault Refusal := .next (s.setI (s.indexSum x))

/-- LD F,Vx: `I <- FONT_BASE + GLYPH_BYTES * (V[x] & 0xF)` (R107). -/
def execLdFVx (x : Reg) (s : State) : Host.Outcome State Fault Refusal := .next (s.setI (s.glyphAddr x))

/-- LD B,Vx: the three decimal digits of `V[x]` at `I`, `I + 1`, `I + 2` (R108). -/
def execLdBVx (x : Reg) (s : State) : Host.Outcome State Fault Refusal :=
  .next (s.setMem (bulkWrite s.mem s.dataBase (bcdDigits (s.getV x))))

/-- LD [I],Vx: `V[0]` to `V[x]` at `I` upward (R109). -/
def execLdMemVx (x : Reg) (s : State) : Host.Outcome State Fault Refusal :=
  .next (s.setMem (bulkWrite s.mem s.dataBase (s.regBytes x)))

/-- LD Vx,[I]: `V[0]` to `V[x]` from `I` upward (R110). -/
def execLdVxMem (x : Reg) (s : State) : Host.Outcome State Fault Refusal :=
  .next (s.loadRegs s.dataBase (x.toNat + 1))

end Sys2Proof.Machine
end

