-- ==== Sys2Proof/Machine/Screen.lean ====
section
/-! DEFINITION. Display instructions (spec/44_display.md). -/

namespace Sys2Proof.Machine

/-- CLS: exactly one `clear()` (R116). -/
def execCls (s : State) : Host.Outcome State Fault Refusal := .next (s.setDisplay s.display.clear)

/-- DRW Vx,Vy,n: `8n` requests in row-major order, then `VF` is 1 if any collided, else 0 (R117). -/
def execDrw (x y : Reg) (n : Nibble) (s : State) : Host.Outcome State Fault Refusal :=
  .next ((s.setDisplay (s.display.draw false (s.spritePixels x y n)).2).setV vf
    (flagByte (s.display.draw false (s.spritePixels x y n)).1))

end Sys2Proof.Machine
end

