-- ==== Sys2Proof/Machine/TimersKeys.lean ====
section
/-! DEFINITION. Timer and key instructions (spec/45_timers_keys.md). -/

namespace Sys2Proof.Machine

/-- LD Vx,DT: `V[x] <- DT` (R120). -/
def execLdVxDT (x : Reg) (s : State) : Host.Outcome State Fault Refusal := .next (s.setV x s.dt)

/-- LD DT,Vx: `DT <- V[x]` (R122). -/
def execLdDTVx (x : Reg) (s : State) : Host.Outcome State Fault Refusal := .next (s.setDT (s.getV x))

/-- LD ST,Vx: `ST <- V[x]` (R123). -/
def execLdSTVx (x : Reg) (s : State) : Host.Outcome State Fault Refusal := .next (s.setST (s.getV x))

/-- SKP Vx: skip if the key `V[x] & 0xF` is down in this step's sample (R124). -/
def execSkp (x : Reg) (s : State) : Host.Outcome State Fault Refusal :=
  .next (s.sampledKeys.skipIf (s.keyDown x))

/-- SKNP Vx: skip if the key `V[x] & 0xF` is not down in this step's sample (R125). -/
def execSknp (x : Reg) (s : State) : Host.Outcome State Fault Refusal :=
  .next (s.sampledKeys.skipIf (!s.keyDown x))

/-- LD Vx,K: with no key down the same instruction runs again at the next step, else `V[x]` takes the least key
that is down (R121). -/
def execLdVxK (x : Reg) (s : State) : Host.Outcome State Fault Refusal :=
  .next (if s.keys = 0 then s.sampledKeys.retryPc
    else s.sampledKeys.setV x (BitVec.ofNat 8 (leastKey s.keys)))

end Sys2Proof.Machine
end

