-- ==== Sys2Proof/Machine/Step.lean ====
section
/-! DEFINITION. The step cycle (spec/40_step_cycle.md). -/

namespace Sys2Proof.Machine

/-- `step()` (R70 to R74): not enabled while the latch is set (R137); else fetch, increment, decode, and the handler
of the instruction, or UnrecognizedOpcode where there is none. -/
def step (s : State) : Host.Outcome State Fault Refusal :=
  match s.fault with
  | some f => .fault f
  | none =>
    match admitted s.cfg s.fetchWord with
    | some i => exec i s.advancePc
    | none => .next (s.advancePc.raise (.unrecognizedOpcode s.fetchWord))

/-- The state with a word of the opcode table stored where `step` fetches next (log 12). -/
def State.withFetchWord (s : State) (nbits w : Nat) : State := s.placeWord (tableWord nbits w)

end Sys2Proof.Machine
end

