-- ==== Sys2Proof/Machine/HostOps.lean ====
section
/-! DEFINITION. The host's operations beside `step` (R4, R153): construction (R160, R161), `load` (R164), `tick`
(R142), and the sound output (R144). -/

namespace Sys2Proof.Machine

/-- Memory after step (1) of R161: every cell holds `fill`. -/
def filledMemory (fill : Byte) : Memory := bulkWrite [] 0 (List.replicate memSize fill.toNat)

/-- Construction with parameters `c`, a display and the input side, which the host supplies (R161): memory filled,
the font written, every other element at its reset value of R22. -/
def construct (c : Config) (d : Display) (inp : Inputs) : State where
  cfg := c
  v := Vector.replicate 16 c.resetV
  i := c.resetI
  pc := BitVec.ofNat 16 programOrigin
  stack := []
  dt := c.resetDT
  st := c.resetST
  mem := bulkWrite (filledMemory c.resetMemFill) fontBase (c.fontTable.map BitVec.toNat)
  tickOrigin := none
  ticksDone := 0
  fault := none
  display := d
  inputs := inp

/-- `load(bytes)`: `BulkWrite(0x200, bytes)` and nothing else (R164). -/
def load (bytes : List Byte) (s : State) : State :=
  s.setMem (bulkWrite s.mem programOrigin (bytes.map BitVec.toNat))

/-- Whole periods from `origin` to `t` (R142). -/
def periods (c : Config) (origin t : Nat) : Nat := ((t - origin) * c.timerHz) / c.tsPerSec

/-- A timer after `k` periods, never below zero (R142, R143). -/
def countDown (b : Byte) (k : Nat) : Byte := BitVec.ofNat 8 (b.toNat - k)

/-- Both timers after `k` periods. -/
def State.countDownBoth (s : State) (k : Nat) : State := (s.setDT (countDown s.dt k)).setST (countDown s.st k)

/-- `tick(t)` (R142). -/
def tick (t : Nat) (s : State) : State :=
  match s.tickOrigin with
  | none => s.setTick (some t) 0
  | some origin =>
    if t < origin then s
    else if periods s.cfg origin t ≤ s.ticksDone then s
    else (s.countDownBoth (periods s.cfg origin t - s.ticksDone)).setTick (some origin) (periods s.cfg origin t)

/-- `sound_on = (ST != 0)`, the one sound output (R144, D28). -/
def soundOn (s : State) : Bool := s.st != 0

/-- What the host may call between operations (R4, R153). -/
inductive Move where
  | step
  | tick (t : Nat)
  | load (bytes : List Byte)
  deriving DecidableEq, Repr

/-- One move of the host; `load` and `tick` never fault and stay defined after a fault (R134, R137). -/
def move (m : Move) (s : State) : Host.Outcome State Fault Refusal :=
  match m with
  | .step => Sys2Proof.Machine.step s
  | .tick t => .next (Sys2Proof.Machine.tick t s)
  | .load bytes => .next (Sys2Proof.Machine.load bytes s)

end Sys2Proof.Machine
end

