-- ==== Sys2Proof/Safety.lean ====
section
/-! DEFINITION. The terms the claims are stated in: completing with a next state, frames, the whole-machine
invariant, the bytes of the font written out from the spec,
and the write matrix of the instructions. -/

namespace Sys2Proof.Machine

/-- The instruction completes: `exec` answers a next state, and `P` holds of it. -/
def Runs (i : Instr) (s : State) (P : State → Prop) : Prop := ∃ t, exec i s = .next t ∧ P t

/-- The instruction is encoded by this word, and the word decodes to it. -/
def EncodedAs (i : Instr) (w : Word) : Prop := encode i = w ∧ decodeWord w = .instr i

/-- The parts of the state beside the registers and the parameters. -/
inductive Part where
  | i | pc | stack | dt | st | mem | tick | fault | display | inputs
  deriving DecidableEq, Repr

/-- Every register but those listed is unchanged. -/
def RegsSameBut (rs : List Reg) (s t : State) : Prop := ∀ r, r ∉ rs → t.getV r = s.getV r

/-- Every part but those listed is unchanged, memory byte for byte; the parameters always are. -/
def Frame (ps : List Part) (s t : State) : Prop :=
  t.cfg = s.cfg ∧
  (.i ∉ ps → t.i = s.i) ∧
  (.pc ∉ ps → t.pc = s.pc) ∧
  (.stack ∉ ps → t.stack = s.stack) ∧
  (.dt ∉ ps → t.dt = s.dt) ∧
  (.st ∉ ps → t.st = s.st) ∧
  (.mem ∉ ps → ∀ a, t.read1 a = s.read1 a) ∧
  (.tick ∉ ps → t.tickOrigin = s.tickOrigin ∧ t.ticksDone = s.ticksDone) ∧
  (.fault ∉ ps → t.fault = s.fault) ∧
  (.display ∉ ps → t.display = s.display) ∧
  (.inputs ∉ ps → t.inputs = s.inputs)

/-- Memory is unchanged outside the `n` bytes from address `a` on. -/
def MemSameOutside (a n : Nat) (s t : State) : Prop :=
  ∀ b, (∀ k, k < n → ea b ≠ ea (a + k)) → t.read1 b = s.read1 b

/-- What a raised fault leaves (R136): the latch holds it, and nothing else has changed. -/
def Latched (f : Fault) (s t : State) : Prop :=
  t.fault = some f ∧ RegsSameBut [] s t ∧ Frame [.fault] s t

/-- Exactly one key sample has been drawn (R148; log 5), and no random byte. -/
def OneKeySample (s t : State) : Prop :=
  t.inputs = { s.inputs with keyQueue := s.inputs.keyQueue.tail, keyDraws := s.inputs.keyDraws + 1 }

/-- The glyphs 0 to 7 of R39's table, written out from 20_memory.md (log 4). -/
def fontBytesLow : List Byte :=
  [0xF0, 0x90, 0x90, 0x90, 0xF0] ++ [0x20, 0x60, 0x20, 0x20, 0x70] ++
  [0xF0, 0x10, 0xF0, 0x80, 0xF0] ++ [0xF0, 0x10, 0xF0, 0x10, 0xF0] ++
  [0x90, 0x90, 0xF0, 0x10, 0x10] ++ [0xF0, 0x80, 0xF0, 0x10, 0xF0] ++
  [0xF0, 0x80, 0xF0, 0x90, 0xF0] ++ [0xF0, 0x10, 0x20, 0x40, 0x40]

/-- The glyphs 8 to F of R39's table, written out from 20_memory.md (log 4). -/
def fontBytesHigh : List Byte :=
  [0xF0, 0x90, 0xF0, 0x90, 0xF0] ++ [0xF0, 0x90, 0xF0, 0x10, 0xF0] ++
  [0xF0, 0x90, 0xF0, 0x90, 0x90] ++ [0xE0, 0x90, 0xE0, 0x90, 0xE0] ++
  [0xF0, 0x80, 0x80, 0x80, 0xF0] ++ [0xE0, 0x90, 0x90, 0x90, 0xE0] ++
  [0xF0, 0x80, 0xF0, 0x80, 0xF0] ++ [0xF0, 0x80, 0xF0, 0x80, 0x80]

/-- The registers an instruction may write: its destinations, and `VF` where it writes a flag (R11). -/
def destsOf : Instr → List Reg
  | .ldByte x _ | .addByte x _ | .ldReg x _ | .orReg x _ | .andReg x _ | .xorReg x _ | .rnd x _ => [x]
  | .addReg x _ | .subReg x _ | .shr x _ | .subnReg x _ | .shl x _ => [x, vf]
  | .drw _ _ _ => [vf]
  | .ldVxDT x | .ldVxK x => [x]
  | .ldVxMem x => (List.range (x.toNat + 1)).map (BitVec.ofNat 4)
  | .sys _ | .cls | .ret | .jp _ | .call _ | .seByte _ _ | .sneByte _ _ | .seReg _ _ | .sneReg _ _ => []
  | .ldI _ | .jpV0 _ | .skp _ | .sknp _ | .ldDTVx _ | .ldSTVx _ | .addIVx _ | .ldFVx _ => []
  | .ldBVx _ | .ldMemVx _ => []

/-- The parts of the state an instruction may write: the `step` column of R23, instruction by instruction. -/
def partsOf : Instr → List Part
  | .sys _ => []
  | .cls | .drw _ _ _ => [.display]
  | .ret | .call _ => [.pc, .stack, .fault]
  | .jp _ | .jpV0 _ | .seByte _ _ | .sneByte _ _ | .seReg _ _ | .sneReg _ _ => [.pc]
  | .ldByte _ _ | .addByte _ _ | .ldReg _ _ | .orReg _ _ | .andReg _ _ | .xorReg _ _ => []
  | .addReg _ _ | .subReg _ _ | .shr _ _ | .subnReg _ _ | .shl _ _ => []
  | .ldI _ | .addIVx _ | .ldFVx _ => [.i]
  | .rnd _ _ => [.inputs]
  | .skp _ | .sknp _ | .ldVxK _ => [.pc, .inputs]
  | .ldVxDT _ | .ldVxMem _ => []
  | .ldDTVx _ => [.dt]
  | .ldSTVx _ => [.st]
  | .ldBVx _ | .ldMemVx _ => [.mem]

/-- The six instructions that write `VF` as a flag (R11). -/
def writesFlag : Instr → Bool
  | .addReg _ _ | .subReg _ _ | .subnReg _ _ | .shr _ _ | .shl _ _ | .drw _ _ _ => true
  | .sys _ | .cls | .ret | .jp _ | .call _ | .seByte _ _ | .sneByte _ _ | .seReg _ _ | .sneReg _ _ => false
  | .ldByte _ _ | .addByte _ _ | .ldReg _ _ | .orReg _ _ | .andReg _ _ | .xorReg _ _ | .rnd _ _ => false
  | .ldI _ | .jpV0 _ | .skp _ | .sknp _ | .ldVxDT _ | .ldVxK _ | .ldDTVx _ | .ldSTVx _ => false
  | .addIVx _ | .ldFVx _ | .ldBVx _ | .ldMemVx _ | .ldVxMem _ => false

/-- The call stack holds at most `STACK_DEPTH` entries (R14). -/
def State.stackBounded (s : State) : Prop :=
  match s.cfg.stackDepth with
  | .entries n => s.stack.length ≤ n
  | .unbounded => True

/-- The frame buffer has `DISPLAY_H` rows of `DISPLAY_W` columns (R147). -/
def State.displayShaped (s : State) : Prop :=
  s.display.fb.length = s.cfg.displayH ∧ ∀ row ∈ s.display.fb, row.length = s.cfg.displayW

/-- The invariant of the machine: memory in canonical form, the stack within its depth, the display of its size,
the parameters well formed. -/
def State.Inv (s : State) : Prop :=
  Memory.wf s.mem ∧ s.stackBounded ∧ s.displayShaped ∧ s.cfg.wf = true

/-- How many of the requests turn the pixel at column `a`, row `b` over: those with a 1 bit there (R147). -/
def flips (ps : List PixelReq) (a b : Nat) : Nat := ps.countP (fun p => p.on && p.x == a && p.y == b)

/-- The pixel at column `a`, row `b` after these requests: XOR of the old pixel with every 1 bit there (R117). -/
def litAfter (d : Display) (ps : List PixelReq) (a b : Nat) : Bool :=
  d.pixel a b != decide (flips ps a b % 2 = 1)

/-- Some request turns a lit pixel off: its bit is 1 and the pixel is lit after the requests before it (R147). -/
def Collides (d : Display) (ps : List PixelReq) : Prop :=
  ∃ before p after, ps = before ++ p :: after ∧ p.on = true ∧ litAfter d before p.x p.y = true

/-- The requests of R117's pseudocode, row by row and bit by bit. -/
def spriteRequests (s : State) (x y : Reg) (n : Nibble) : List PixelReq :=
  (List.range n.toNat).flatMap fun r => (List.range 8).map fun j =>
    { x := ((s.getV x).toNat % s.cfg.displayW + j) % s.cfg.displayW
      y := ((s.getV y).toNat % s.cfg.displayH + r) % s.cfg.displayH
      on := decide ((s.read1 (s.i.toNat + r)).toNat / 2 ^ (7 - j) % 2 = 1) }

end Sys2Proof.Machine
end

