-- ==== Sys2Proof/Certificates/Slice0/Obligations.lean ====
section
/-! DEFINITION. The statements for the provers. In every statement about `exec`, the state already holds the fetch
increment, so `pc` is the address of the next sequential instruction (R75). -/

open Sys2Proof Sys2Proof.Machine

/-! Encoding -/

/-- Every well-formed instruction is the decoding of its word (R51 to R59). -/
def Obligations.DecodeOfEncode : Prop :=
  ∀ i : Instr, i.wf = true → decodeWord (encode i) = .instr i

/-- Every recognised word is the encoding of the one instruction it decodes to, which is well formed: no bit of a
recognised word is dropped (R51 to R59, R61). -/
def Obligations.EncodeOfDecode : Prop :=
  ∀ (w : Word) (i : Instr), decodeWord w = .instr i → encode i = w ∧ i.wf = true

/-- The unrecognised words are exactly those of R60's table, and decoding hands that very word on. -/
def Obligations.UnrecognisedWordsExact : Prop :=
  ∀ w : Word,
    (∀ v, decodeWord w = .unrecognised v → v = w) ∧
    (decodeWord w = .unrecognised w ↔
      (w.toNat / 0x1000 = 0x5 ∧ w.toNat % 16 ≠ 0) ∨
      (w.toNat / 0x1000 = 0x8 ∧ w.toNat % 16 ∈ [0x8, 0x9, 0xA, 0xB, 0xC, 0xD, 0xF]) ∨
      (w.toNat / 0x1000 = 0x9 ∧ w.toNat % 16 ≠ 0) ∨
      (w.toNat / 0x1000 = 0xE ∧ w.toNat % 256 ∉ [0x9E, 0xA1]) ∨
      (w.toNat / 0x1000 = 0xF ∧
        w.toNat % 256 ∉ [0x07, 0x0A, 0x15, 0x18, 0x1E, 0x29, 0x33, 0x55, 0x65]))

/-- A few words written out from 95_test_vectors.md section 2.1, at least one for each overloaded class (0, 5, 8, 9,
0xE, 0xF), decode as that table says. -/
def Obligations.SampleWordsDecode : Prop :=
  decodeWord 0x00E0 = .instr .cls ∧ decodeWord 0x00EE = .instr .ret ∧
  decodeWord 0x01E0 = .instr (.sys 0x1E0) ∧ decodeWord 0x2ABC = .instr (.call 0xABC) ∧
  decodeWord 0x4A12 = .instr (.sneByte 0xA 0x12) ∧ decodeWord 0x5AB0 = .instr (.seReg 0xA 0xB) ∧
  decodeWord 0x5AB1 = .unrecognised 0x5AB1 ∧ decodeWord 0x8AB7 = .instr (.subnReg 0xA 0xB) ∧
  decodeWord 0x8AB8 = .unrecognised 0x8AB8 ∧ decodeWord 0x9AB0 = .instr (.sneReg 0xA 0xB) ∧
  decodeWord 0x9AB5 = .unrecognised 0x9AB5 ∧ decodeWord 0xDAB5 = .instr (.drw 0xA 0xB 5) ∧
  decodeWord 0xEA9E = .instr (.skp 0xA) ∧ decodeWord 0xFA33 = .instr (.ldBVx 0xA) ∧
  decodeWord 0xF000 = .unrecognised 0xF000

/-! Memory -/

/-- `MemWrite(a, 1, v)` stores `v & 0xFF` at `EA(a)` and changes no other cell; every cell is writable (R33). -/
def Obligations.ByteWriteThenRead : Prop :=
  ∀ (m : Memory) (a v b : Nat),
    (memRead1 (memWrite1 m a v) b).toNat = if b % 4096 = a % 4096 then v % 256 else (memRead1 m b).toNat

/-- `MemWrite(a, 2, v)` puts the high byte at `a` and the low byte at `a + 1`, and `MemRead(a, 2)` gives back
`v & 0xFFFF`, at every address, 0xFFF included (R34, R35). -/
def Obligations.WordWriteThenRead : Prop :=
  ∀ (m : Memory) (a v : Nat),
    (memRead2 m a).toNat = (memRead1 m a).toNat * 256 + (memRead1 m (a + 1)).toNat ∧
    (memRead1 (memWrite2 m a v) a).toNat = v / 256 % 256 ∧
    (memRead1 (memWrite2 m a v) (a + 1)).toNat = v % 256 ∧
    (∀ b, b % 4096 ≠ a % 4096 → b % 4096 ≠ (a + 1) % 4096 → memRead1 (memWrite2 m a v) b = memRead1 m b) ∧
    (memRead2 (memWrite2 m a v) a).toNat = v % 65536

/-- `BulkWrite(a, bytes)`: a cell holds the last byte written to it, masked to 8 bits, and a cell no byte goes to
keeps its contents; the sequence wraps past 0xFFF (R36). -/
def Obligations.BulkWriteLastByteWins : Prop :=
  ∀ (m : Memory) (a : Nat) (bytes : List Nat),
    (∀ k, (hk : k < bytes.length) →
      (∀ j, k < j → j < bytes.length → (a + j) % 4096 ≠ (a + k) % 4096) →
      (memRead1 (bulkWrite m a bytes) (a + k)).toNat = bytes[k] % 256) ∧
    (∀ b, (∀ k, k < bytes.length → b % 4096 ≠ (a + k) % 4096) →
      memRead1 (bulkWrite m a bytes) b = memRead1 m b)

/-! Control transfer -/

/-- SYS does nothing (R80). -/
def Obligations.SysDoesNothing : Prop :=
  ∀ (nnn : Addr) (s : State),
    (nnn ≠ 0x0E0 → nnn ≠ 0x0EE → EncodedAs (.sys nnn) (0x0#4 ++ nnn)) ∧
    Runs (.sys nnn) s (fun t => RegsSameBut [] s t ∧ Frame [] s t)

/-- RET pops the newest entry, whole, into `pc`; on an empty stack it raises StackUnderflow and pops
nothing (R81, R132). -/
def Obligations.RetPopsOrUnderflows : Prop :=
  ∀ s : State,
    EncodedAs .ret 0x00EE ∧
    (∀ l w, s.stack = l ++ [w] →
      Runs .ret s (fun t => t.pc = w ∧ t.stack = l ∧ RegsSameBut [] s t ∧ Frame [.pc, .stack] s t)) ∧
    (s.stack = [] → Runs .ret s (Latched .stackUnderflow s))

/-- JP sets `pc` to `nnn`, whatever it was (R82). -/
def Obligations.JpSetsPc : Prop :=
  ∀ (nnn : Addr) (s : State),
    EncodedAs (.jp nnn) (0x1#4 ++ nnn) ∧
    Runs (.jp nnn) s (fun t => t.pc.toNat = nnn.toNat ∧ RegsSameBut [] s t ∧ Frame [.pc] s t)

/-- CALL pushes the address of the next instruction and jumps; on a full stack it raises StackOverflow and pushes
nothing; an unbounded stack is never full (R83, R133). -/
def Obligations.CallPushesOrOverflows : Prop :=
  ∀ (nnn : Addr) (s : State),
    EncodedAs (.call nnn) (0x2#4 ++ nnn) ∧
    (s.cfg.stackDepth ≠ .entries s.stack.length →
      Runs (.call nnn) s (fun t => t.pc.toNat = nnn.toNat ∧ t.stack = s.stack ++ [s.pc] ∧
        RegsSameBut [] s t ∧ Frame [.pc, .stack] s t)) ∧
    (s.cfg.stackDepth = .entries s.stack.length → Runs (.call nnn) s (Latched .stackOverflow s))

/-- CALL and then RET at the target come back to the instruction after the CALL with the stack as it was (R75). -/
def Obligations.CallThenRetReturns : Prop :=
  ∀ (nnn : Addr) (s : State), s.cfg.stackDepth ≠ .entries s.stack.length →
    ∃ t, exec (.call nnn) s = .next t ∧
      Runs .ret t.advancePc (fun u => u.pc = s.pc ∧ u.stack = s.stack ∧ RegsSameBut [] s u ∧ Frame [] s u)

/-- JP V0 adds `V[0]` and `nnn`, unreduced: at most 0x10FE (R88). -/
def Obligations.JpV0AddsV0 : Prop :=
  ∀ (nnn : Addr) (s : State),
    EncodedAs (.jpV0 nnn) (0xB#4 ++ nnn) ∧
    Runs (.jpV0 nnn) s (fun t => t.pc.toNat = (s.getV 0).toNat + nnn.toNat ∧ t.pc.toNat ≤ 0x10FE ∧
      RegsSameBut [] s t ∧ Frame [.pc] s t)

/-- SE and SNE with a byte skip on equal and on not equal (R84, R85). -/
def Obligations.SkipOnByte : Prop :=
  ∀ (x : Reg) (kk : Byte) (s : State),
    EncodedAs (.seByte x kk) (0x3#4 ++ x ++ kk) ∧ EncodedAs (.sneByte x kk) (0x4#4 ++ x ++ kk) ∧
    Runs (.seByte x kk) s (fun t =>
      t.pc.toNat = (if s.getV x = kk then (s.pc.toNat + 2) % 65536 else s.pc.toNat) ∧
      RegsSameBut [] s t ∧ Frame [.pc] s t) ∧
    Runs (.sneByte x kk) s (fun t =>
      t.pc.toNat = (if s.getV x = kk then s.pc.toNat else (s.pc.toNat + 2) % 65536) ∧
      RegsSameBut [] s t ∧ Frame [.pc] s t)

/-- SE and SNE with two registers skip on equal and on not equal (R86, R87). -/
def Obligations.SkipOnRegister : Prop :=
  ∀ (x y : Reg) (s : State),
    EncodedAs (.seReg x y) (0x5#4 ++ x ++ y ++ 0#4) ∧ EncodedAs (.sneReg x y) (0x9#4 ++ x ++ y ++ 0#4) ∧
    Runs (.seReg x y) s (fun t =>
      t.pc.toNat = (if s.getV x = s.getV y then (s.pc.toNat + 2) % 65536 else s.pc.toNat) ∧
      RegsSameBut [] s t ∧ Frame [.pc] s t) ∧
    Runs (.sneReg x y) s (fun t =>
      t.pc.toNat = (if s.getV x = s.getV y then s.pc.toNat else (s.pc.toNat + 2) % 65536) ∧
      RegsSameBut [] s t ∧ Frame [.pc] s t)

/-! Register load, arithmetic, logic, shift, random -/

/-- LD Vx,byte (R92). -/
def Obligations.LdByteLoads : Prop :=
  ∀ (x : Reg) (kk : Byte) (s : State),
    EncodedAs (.ldByte x kk) (0x6#4 ++ x ++ kk) ∧
    Runs (.ldByte x kk) s (fun t => t.getV x = kk ∧ RegsSameBut [x] s t ∧ Frame [] s t)

/-- ADD Vx,byte wraps modulo 256 and writes no flag (R93). -/
def Obligations.AddByteWraps : Prop :=
  ∀ (x : Reg) (kk : Byte) (s : State),
    EncodedAs (.addByte x kk) (0x7#4 ++ x ++ kk) ∧
    Runs (.addByte x kk) s (fun t =>
      (t.getV x).toNat = ((s.getV x).toNat + kk.toNat) % 256 ∧ RegsSameBut [x] s t ∧ Frame [] s t)

/-- LD Vx,Vy copies a register and writes no flag (R94). -/
def Obligations.LdRegCopies : Prop :=
  ∀ (x y : Reg) (s : State),
    EncodedAs (.ldReg x y) (0x8#4 ++ x ++ y ++ 0#4) ∧
    Runs (.ldReg x y) s (fun t => t.getV x = s.getV y ∧ RegsSameBut [x] s t ∧ Frame [] s t)

/-- OR, AND and XOR are bitwise on 8 bits and write no flag (R95, R96, R97). -/
def Obligations.LogicIsBitwise : Prop :=
  ∀ (x y : Reg) (s : State),
    EncodedAs (.orReg x y) (0x8#4 ++ x ++ y ++ 1#4) ∧ EncodedAs (.andReg x y) (0x8#4 ++ x ++ y ++ 2#4) ∧
    EncodedAs (.xorReg x y) (0x8#4 ++ x ++ y ++ 3#4) ∧
    Runs (.orReg x y) s (fun t =>
      (∀ k, (t.getV x).getLsbD k = ((s.getV x).getLsbD k || (s.getV y).getLsbD k)) ∧
      RegsSameBut [x] s t ∧ Frame [] s t) ∧
    Runs (.andReg x y) s (fun t =>
      (∀ k, (t.getV x).getLsbD k = ((s.getV x).getLsbD k && (s.getV y).getLsbD k)) ∧
      RegsSameBut [x] s t ∧ Frame [] s t) ∧
    Runs (.xorReg x y) s (fun t =>
      (∀ k, (t.getV x).getLsbD k = ((s.getV x).getLsbD k != (s.getV y).getLsbD k)) ∧
      RegsSameBut [x] s t ∧ Frame [] s t)

/-- ADD Vx,Vy: the sum modulo 256, then `VF` = carry; with `x = 15` the flag is what stays (R98). -/
def Obligations.AddRegSumAndCarry : Prop :=
  ∀ (x y : Reg) (s : State),
    EncodedAs (.addReg x y) (0x8#4 ++ x ++ y ++ 4#4) ∧
    Runs (.addReg x y) s (fun t =>
      (x ≠ vf → (t.getV x).toNat = ((s.getV x).toNat + (s.getV y).toNat) % 256) ∧
      (t.getV vf).toNat = (if 0xFF < (s.getV x).toNat + (s.getV y).toNat then 1 else 0) ∧
      RegsSameBut [x, vf] s t ∧ Frame [] s t)

/-- SUB with the flag written last: the difference modulo 256, `VF` = 1 where no borrow was needed (R99). -/
def Obligations.SubDifferenceAndNoBorrow : Prop :=
  ∀ (x y : Reg) (s : State), s.cfg.vfOrder = .flagLast →
    EncodedAs (.subReg x y) (0x8#4 ++ x ++ y ++ 5#4) ∧
    Runs (.subReg x y) s (fun t =>
      (x ≠ vf → (t.getV x).toNat = ((s.getV x).toNat + 256 - (s.getV y).toNat) % 256) ∧
      (t.getV vf).toNat = (if (s.getV y).toNat ≤ (s.getV x).toNat then 1 else 0) ∧
      RegsSameBut [x, vf] s t ∧ Frame [] s t)

/-- SUBN with the flag written last: the mirror of SUB, the destination still `V[x]` (R101). -/
def Obligations.SubnDifferenceAndNoBorrow : Prop :=
  ∀ (x y : Reg) (s : State), s.cfg.vfOrder = .flagLast →
    EncodedAs (.subnReg x y) (0x8#4 ++ x ++ y ++ 7#4) ∧
    Runs (.subnReg x y) s (fun t =>
      (x ≠ vf → (t.getV x).toNat = ((s.getV y).toNat + 256 - (s.getV x).toNat) % 256) ∧
      (t.getV vf).toNat = (if (s.getV x).toNat ≤ (s.getV y).toNat then 1 else 0) ∧
      RegsSameBut [x, vf] s t ∧ Frame [] s t)

/-- SHR with the flag written last: half of `V[x]`, `VF` = old bit 0, whatever `y` is (R100). -/
def Obligations.ShrHalvesAndCarriesOut : Prop :=
  ∀ (x y : Reg) (s : State), s.cfg.vfOrder = .flagLast →
    EncodedAs (.shr x y) (0x8#4 ++ x ++ y ++ 6#4) ∧
    Runs (.shr x y) s (fun t =>
      (x ≠ vf → (t.getV x).toNat = (s.getV x).toNat / 2) ∧
      (t.getV vf).toNat = (s.getV x).toNat % 2 ∧
      RegsSameBut [x, vf] s t ∧ Frame [] s t)

/-- SHL with the flag written last: twice `V[x]` modulo 256, `VF` = old bit 7, whatever `y` is (R102). -/
def Obligations.ShlDoublesAndCarriesOut : Prop :=
  ∀ (x y : Reg) (s : State), s.cfg.vfOrder = .flagLast →
    EncodedAs (.shl x y) (0x8#4 ++ x ++ y ++ 0xE#4) ∧
    Runs (.shl x y) s (fun t =>
      (x ≠ vf → (t.getV x).toNat = 2 * (s.getV x).toNat % 256) ∧
      (t.getV vf).toNat = (s.getV x).toNat / 128 ∧
      RegsSameBut [x, vf] s t ∧ Frame [] s t)

/-- VF_ORDER = as_listed: with `x = 15` the table of U3, and with any other `x` the same registers as with the flag
last; ADD is the same in both (93_implementation_defined.md U3). -/
def Obligations.AsListedOrderOfWrites : Prop :=
  ∀ (x y : Reg) (s : State), s.cfg.vfOrder = .asListed →
    Runs (.addReg x y) s (fun t =>
      (x ≠ vf → (t.getV x).toNat = ((s.getV x).toNat + (s.getV y).toNat) % 256) ∧
      (t.getV vf).toNat = (if 0xFF < (s.getV x).toNat + (s.getV y).toNat then 1 else 0) ∧
      RegsSameBut [x, vf] s t ∧ Frame [] s t) ∧
    Runs (.subReg x y) s (fun t =>
      (t.getV x).toNat = ((s.getV x).toNat + 256 - (s.getV y).toNat) % 256 ∧
      (x ≠ vf → (t.getV vf).toNat = if (s.getV y).toNat ≤ (s.getV x).toNat then 1 else 0) ∧
      RegsSameBut [x, vf] s t ∧ Frame [] s t) ∧
    Runs (.subnReg x y) s (fun t =>
      (t.getV x).toNat = ((s.getV y).toNat + 256 - (s.getV x).toNat) % 256 ∧
      (x ≠ vf → (t.getV vf).toNat = if (s.getV x).toNat ≤ (s.getV y).toNat then 1 else 0) ∧
      RegsSameBut [x, vf] s t ∧ Frame [] s t) ∧
    Runs (.shr x y) s (fun t =>
      (t.getV x).toNat = (if x = vf then 0 else (s.getV x).toNat / 2) ∧
      (x ≠ vf → (t.getV vf).toNat = (s.getV x).toNat % 2) ∧
      RegsSameBut [x, vf] s t ∧ Frame [] s t) ∧
    Runs (.shl x y) s (fun t =>
      (t.getV x).toNat = (if x = vf then 2 * ((s.getV x).toNat / 128) else 2 * (s.getV x).toNat % 256) ∧
      (x ≠ vf → (t.getV vf).toNat = (s.getV x).toNat / 128) ∧
      RegsSameBut [x, vf] s t ∧ Frame [] s t)

/-- RND draws one random byte and masks it with `kk`; no bit outside `kk` is ever set, and no other instruction
draws one (R103). -/
def Obligations.RndMasksOneDraw : Prop :=
  ∀ (x : Reg) (kk : Byte) (s : State),
    EncodedAs (.rnd x kk) (0xC#4 ++ x ++ kk) ∧
    Runs (.rnd x kk) s (fun t =>
      t.getV x = s.randomByte &&& kk ∧ t.getV x &&& ~~~kk = 0 ∧
      t.inputs.rndDraws = s.inputs.rndDraws + 1 ∧ t.inputs.keyDraws = s.inputs.keyDraws ∧
      t.inputs.keyQueue = s.inputs.keyQueue ∧ RegsSameBut [x] s t ∧ Frame [.inputs] s t) ∧
    (∀ i : Instr, (∀ (r : Reg) (b : Byte), i ≠ .rnd r b) →
      Runs i s (fun t => t.inputs.rndDraws = s.inputs.rndDraws ∧ t.inputs.rndQueue = s.inputs.rndQueue))

/-! Index register and memory -/

/-- LD I,addr (R105). -/
def Obligations.LdIZeroExtends : Prop :=
  ∀ (nnn : Addr) (s : State),
    EncodedAs (.ldI nnn) (0xA#4 ++ nnn) ∧
    Runs (.ldI nnn) s (fun t => t.i.toNat = nnn.toNat ∧ RegsSameBut [] s t ∧ Frame [.i] s t)

/-- ADD I,Vx is modulo 65536 and writes no flag (R106). -/
def Obligations.AddIWrapsAt16Bits : Prop :=
  ∀ (x : Reg) (s : State),
    EncodedAs (.addIVx x) (0xF#4 ++ x ++ 0x1E#8) ∧
    Runs (.addIVx x) s (fun t =>
      t.i.toNat = (s.i.toNat + (s.getV x).toNat) % 65536 ∧ RegsSameBut [] s t ∧ Frame [.i] s t)

/-- LD F,Vx computes the address of the glyph `V[x] & 0xF` (R107), for every glyph size whose table of sixteen fits
in 16 bits, the default 5 among them. -/
def Obligations.LdFGlyphAddress : Prop :=
  ∀ (x : Reg) (s : State), s.cfg.glyphBytes ≤ 4369 →
    EncodedAs (.ldFVx x) (0xF#4 ++ x ++ 0x29#8) ∧
    Runs (.ldFVx x) s (fun t =>
      t.i.toNat = s.cfg.glyphBytes * ((s.getV x).toNat % 16) ∧ RegsSameBut [] s t ∧ Frame [.i] s t)

/-- LD B,Vx stores the three decimal digits of `V[x]`, hundreds first, at `I`, `I + 1`, `I + 2`, and changes no
other byte (R108). -/
def Obligations.LdBStoresDigits : Prop :=
  ∀ (x : Reg) (s : State),
    EncodedAs (.ldBVx x) (0xF#4 ++ x ++ 0x33#8) ∧
    Runs (.ldBVx x) s (fun t =>
      (t.read1 s.dataBase).toNat = (s.getV x).toNat / 100 ∧
      (t.read1 (s.dataBase + 1)).toNat = (s.getV x).toNat / 10 % 10 ∧
      (t.read1 (s.dataBase + 2)).toNat = (s.getV x).toNat % 10 ∧
      MemSameOutside s.dataBase 3 s t ∧ RegsSameBut [] s t ∧ Frame [.mem] s t)

/-- LD [I],Vx stores `V[0]` to `V[x]` from `I` upward, each address reduced by itself, changes no other byte and
leaves `I` alone (R109). -/
def Obligations.StoreRegistersAtI : Prop :=
  ∀ (x : Reg) (s : State),
    EncodedAs (.ldMemVx x) (0xF#4 ++ x ++ 0x55#8) ∧
    Runs (.ldMemVx x) s (fun t =>
      (∀ r : Reg, r.toNat ≤ x.toNat → t.read1 (s.dataBase + r.toNat) = s.getV r) ∧
      MemSameOutside s.dataBase (x.toNat + 1) s t ∧ RegsSameBut [] s t ∧ Frame [.mem] s t)

/-- LD Vx,[I] loads `V[0]` to `V[x]` from `I` upward and leaves `I` alone (R110). -/
def Obligations.LoadRegistersFromI : Prop :=
  ∀ (x : Reg) (s : State),
    EncodedAs (.ldVxMem x) (0xF#4 ++ x ++ 0x65#8) ∧
    Runs (.ldVxMem x) s (fun t =>
      (∀ r : Reg, t.getV r = if r.toNat ≤ x.toNat then s.read1 (s.dataBase + r.toNat) else s.getV r) ∧
      Frame [] s t)

/-- A store over the next instruction is seen by the next fetch (R47, R166). -/
def Obligations.StoreSeenByNextFetch : Prop :=
  ∀ (x : Reg) (s : State), 1 ≤ x.toNat → s.dataBase % 4096 = s.pc.toNat % 4096 →
    Runs (.ldMemVx x) s (fun t => t.pc = s.pc ∧
      t.fetchWord.toNat = (s.getV 0).toNat * 256 + (s.getV 1).toNat)

/-! Display -/

/-- CLS issues exactly one `clear()`, every pixel is off after it, and no register changes (R116). -/
def Obligations.ClsClearsOnce : Prop :=
  ∀ s : State,
    EncodedAs .cls 0x00E0 ∧
    Runs .cls s (fun t =>
      t.display.calls = s.display.calls ++ [.clear] ∧ (∀ a b, t.display.pixel a b = false) ∧
      RegsSameBut [] s t ∧ Frame [.display] s t)

/-- DRW issues `8n` requests in row-major order with wrapped coordinates, XORs the pixels of the reference device,
and sets `VF` to 1 exactly where some request turned a lit pixel off (R117). -/
def Obligations.DrwXorsAndFlagsCollision : Prop :=
  ∀ (x y : Reg) (n : Nibble) (s : State), s.displayShaped → s.cfg.wf = true →
    EncodedAs (.drw x y n) (0xD#4 ++ x ++ y ++ n) ∧
    (spriteRequests s x y n).length = 8 * n.toNat ∧
    Runs (.drw x y n) s (fun t =>
      t.display.calls = s.display.calls ++ (spriteRequests s x y n).map PixelReq.call ∧
      (∀ a b, a < s.cfg.displayW → b < s.cfg.displayH →
        t.display.pixel a b = litAfter s.display (spriteRequests s x y n) a b) ∧
      (Collides s.display (spriteRequests s x y n) → t.getV vf = 1) ∧
      (¬ Collides s.display (spriteRequests s x y n) → t.getV vf = 0) ∧
      RegsSameBut [vf] s t ∧ Frame [.display] s t)

/-- Drawing the same sprite twice at the same place restores the frame buffer, where neither coordinate is
`VF` (44_display.md, R117 corner cases); the display has positive dimensions (log 11). -/
def Obligations.DrawTwiceRestoresDisplay : Prop :=
  ∀ (x y : Reg) (n : Nibble) (s : State), x ≠ vf → y ≠ vf →
    0 < s.cfg.displayW → 0 < s.cfg.displayH →
    Runs (.drw x y n) s (fun t => Runs (.drw x y n) t (fun u => u.display.fb = s.display.fb))

/-! Timers and keys -/

/-- LD Vx,DT reads the delay timer (R120). -/
def Obligations.LdVxDTReadsTimer : Prop :=
  ∀ (x : Reg) (s : State),
    EncodedAs (.ldVxDT x) (0xF#4 ++ x ++ 0x07#8) ∧
    Runs (.ldVxDT x) s (fun t => t.getV x = s.dt ∧ RegsSameBut [x] s t ∧ Frame [] s t)

/-- LD DT,Vx and LD ST,Vx write one timer and leave the tick bookkeeping alone (R122, R123). -/
def Obligations.TimerLoadsWriteOneTimer : Prop :=
  ∀ (x : Reg) (s : State),
    EncodedAs (.ldDTVx x) (0xF#4 ++ x ++ 0x15#8) ∧ EncodedAs (.ldSTVx x) (0xF#4 ++ x ++ 0x18#8) ∧
    Runs (.ldDTVx x) s (fun t => t.dt = s.getV x ∧ RegsSameBut [] s t ∧ Frame [.dt] s t) ∧
    Runs (.ldSTVx x) s (fun t => t.st = s.getV x ∧ RegsSameBut [] s t ∧ Frame [.st] s t)

/-- SKP and SKNP test the key `V[x] & 0xF` of this step's sample, whatever the sample is, and draw
one sample (R124, R125). -/
def Obligations.SkipOnKey : Prop :=
  ∀ (x : Reg) (s : State),
    EncodedAs (.skp x) (0xE#4 ++ x ++ 0x9E#8) ∧ EncodedAs (.sknp x) (0xE#4 ++ x ++ 0xA1#8) ∧
    Runs (.skp x) s (fun t =>
      t.pc.toNat = (if s.keys.getLsbD ((s.getV x).toNat % 16) then (s.pc.toNat + 2) % 65536 else s.pc.toNat) ∧
      OneKeySample s t ∧ RegsSameBut [] s t ∧ Frame [.pc, .inputs] s t) ∧
    Runs (.sknp x) s (fun t =>
      t.pc.toNat = (if s.keys.getLsbD ((s.getV x).toNat % 16) then s.pc.toNat else (s.pc.toNat + 2) % 65536) ∧
      OneKeySample s t ∧ RegsSameBut [] s t ∧ Frame [.pc, .inputs] s t)

/-- LD Vx,K: with no key down `pc` goes back by 2 and no register changes, else `V[x]` takes the least key that is
down (R121); either way one sample is drawn. -/
def Obligations.KeyWaitRepeatsOrTakesLeast : Prop :=
  ∀ (x : Reg) (s : State),
    EncodedAs (.ldVxK x) (0xF#4 ++ x ++ 0x0A#8) ∧
    (s.keys = 0 → Runs (.ldVxK x) s (fun t =>
      t.pc.toNat = (s.pc.toNat + 65536 - 2) % 65536 ∧ OneKeySample s t ∧
      RegsSameBut [] s t ∧ Frame [.pc, .inputs] s t)) ∧
    (∀ k, k < 16 → s.keys.getLsbD k = true → (∀ j, j < k → s.keys.getLsbD j = false) →
      Runs (.ldVxK x) s (fun t => (t.getV x).toNat = k ∧ OneKeySample s t ∧
        RegsSameBut [x] s t ∧ Frame [.inputs] s t))

/-- The model's draws (log 5): a sampling instruction takes the first injected sample, and with none injected the
free value of its own draw number, which it advances, so that every sample is fresh; the same for RND; and no
instruction but SKP, SKNP, LD Vx,K and RND touches the draws (R148, R149). -/
def Obligations.DrawsTakenOnlyWhenAsked : Prop :=
  (∀ (x : Reg) (s : State) (k : Keys) (rest : List Keys), s.inputs.keyQueue = k :: rest →
    s.keys = k ∧
    (∀ i ∈ [Instr.skp x, .sknp x, .ldVxK x],
      Runs i s (fun t => t.inputs = { s.inputs with keyQueue := rest, keyDraws := s.inputs.keyDraws + 1 }))) ∧
  (∀ (x : Reg) (s : State), s.inputs.keyQueue = [] →
    s.keys = Config.keysDraw s.inputs.keyDraws ∧
    (∀ i ∈ [Instr.skp x, .sknp x, .ldVxK x],
      Runs i s (fun t => t.inputs = { s.inputs with keyQueue := [], keyDraws := s.inputs.keyDraws + 1 }))) ∧
  (∀ (x : Reg) (kk : Byte) (s : State) (b : Byte) (rest : List Byte), s.inputs.rndQueue = b :: rest →
    Runs (.rnd x kk) s (fun t => t.getV x = b &&& kk ∧
      t.inputs = { s.inputs with rndQueue := rest, rndDraws := s.inputs.rndDraws + 1 })) ∧
  (∀ (x : Reg) (kk : Byte) (s : State), s.inputs.rndQueue = [] →
    s.randomByte = Config.randomDraw s.inputs.rndDraws ∧
    Runs (.rnd x kk) s (fun t => t.getV x = Config.randomDraw s.inputs.rndDraws &&& kk ∧
      t.inputs = { s.inputs with rndQueue := [], rndDraws := s.inputs.rndDraws + 1 })) ∧
  (∀ (i : Instr) (s : State), .inputs ∉ partsOf i → Runs i s (fun t => t.inputs = s.inputs))

/-! The step cycle and faults -/

/-- A step runs the instruction the bytes at `pc` decode to, on the state whose `pc` has moved past its two
bytes (R70 to R73). -/
def Obligations.StepRunsDecodedInstruction : Prop :=
  ∀ (s : State) (i : Instr), s.fault = none →
    decodeBytes [s.read1 s.pc.toNat, s.read1 (s.pc.toNat + 1)] = .word (.instr i) [] →
    s.cfg.implements i.mnemonic = true →
    step s = exec i s.advancePc ∧
    s.advancePc.pc.toNat = (s.pc.toNat + 2) % 65536 ∧ RegsSameBut [] s s.advancePc ∧ Frame [.pc] s s.advancePc

/-- A step whose word matches no row, or a row that is not implemented, raises UnrecognizedOpcode carrying the word,
with `pc` incremented and nothing else changed (R74). -/
def Obligations.StepRaisesUnrecognizedOpcode : Prop :=
  ∀ s : State, s.fault = none →
    ((∃ v, decodeWord s.fetchWord = .unrecognised v) ∨
      (∃ i, decodeWord s.fetchWord = .instr i ∧ s.cfg.implements i.mnemonic = false)) →
    ∃ t, step s = .next t ∧ t.fault = some (.unrecognizedOpcode s.fetchWord) ∧
      t.pc.toNat = (s.pc.toNat + 2) % 65536 ∧ RegsSameBut [] s t ∧ Frame [.pc, .fault] s t

/-- The step is over for good exactly while the latch is set, and then it answers the latched fault (R137; log 2). -/
def Obligations.LatchedFaultStopsStep : Prop :=
  ∀ (s : State) (f : Fault), step s = .fault f ↔ s.fault = some f

/-- Nothing else faults or stops: while the latch is clear every step completes, and every instruction completes in
every state (R134). -/
def Obligations.NothingElseStops : Prop :=
  (∀ s : State, s.fault = none → ∃ t, step s = .next t) ∧
  (∀ (i : Instr) (s : State), ∃ t, exec i s = .next t) ∧
  (∀ (s : State) (r : Refusal), step s ≠ .refused r)

/-- The three faults, when each arises, and that each is precise: `pc` has the fetch increment, every other element
is as before the step (R130, R135, R136). -/
def Obligations.FaultsAreThreeAndPrecise : Prop :=
  ∀ (s t : State) (f : Fault), s.fault = none → step s = .next t → t.fault = some f →
    t.pc.toNat = (s.pc.toNat + 2) % 65536 ∧ RegsSameBut [] s t ∧ Frame [.pc, .fault] s t ∧
    ((f = .unrecognizedOpcode s.fetchWord ∧ admitted s.cfg s.fetchWord = none) ∨
     (f = .stackUnderflow ∧ admitted s.cfg s.fetchWord = some .ret ∧ s.stack = []) ∨
     (f = .stackOverflow ∧ (∃ nnn, admitted s.cfg s.fetchWord = some (.call nnn)) ∧
       s.cfg.stackDepth = .entries s.stack.length))

/-- A jump to itself is a fixed point of the step: every element of state is unchanged (R76). -/
def Obligations.JumpToSelfIsFixedPoint : Prop :=
  ∀ s : State, s.fault = none → s.cfg.implements .jp = true → s.pc.toNat < 4096 →
    s.fetchWord.toNat = 0x1000 + s.pc.toNat → step s = .next s

/-! Whole-machine rules -/

/-- The write matrix: no instruction writes a register or an element outside its own row (R11, R23). -/
def Obligations.WriteMatrix : Prop :=
  ∀ (i : Instr) (s t : State), exec i s = .next t → RegsSameBut (destsOf i) s t ∧ Frame (partsOf i) s t

/-- The six flag-writing instructions leave 0 or 1 in `VF`, with the flag written last, and no other instruction
writes `VF` but as a destination (R11). -/
def Obligations.FlagIsZeroOrOne : Prop :=
  ∀ (i : Instr) (s t : State), exec i s = .next t →
    (writesFlag i = true → s.cfg.vfOrder = .flagLast → t.getV vf = 0 ∨ t.getV vf = 1) ∧
    (writesFlag i = false → vf ∉ destsOf i → t.getV vf = s.getV vf)

/-- No step reads the tick bookkeeping: changing it changes nothing else of the outcome, and the step leaves it
alone (R18). -/
def Obligations.TickBookkeepingUnseen : Prop :=
  ∀ (s t : State) (o : Option Nat) (n : Nat), step s = .next t →
    step (s.setTick o n) = .next (t.setTick o n) ∧ t.tickOrigin = s.tickOrigin ∧ t.ticksDone = s.ticksDone

/-- No instruction reads the sound timer: changing it changes nothing else of the next state (R16). -/
def Obligations.SoundTimerUnseen : Prop :=
  ∀ (s t : State) (b : Byte), step s = .next t →
    ∃ t', step (s.setST b) = .next t' ∧ t'.setST t.st = t ∧
      (t.st = s.st ∧ t'.st = b ∨ t'.st = t.st)

/-- Reset meets the invariant. -/
def Obligations.ResetMeetsInvariant : Prop := State.reset.Inv

/-- Every move of the host, `step`, `tick` and `load`, keeps the invariant and the parameters: memory in canonical
form, the stack within STACK_DEPTH (R14), the display of its size (R147). -/
def Obligations.EveryMoveKeepsInvariant : Prop :=
  ∀ (m : Move) (s t : State), s.Inv → move m s = .next t → t.Inv ∧ t.cfg = s.cfg

/-! Reset and the host's operations -/

/-- Reset: `pc` at 0x200, the stack empty, no fault; the 80 bytes of R39's font at 0x000 to 0x04F, which are general
knowledge (log 4); and the reset parameters' default 0 everywhere else, which is the spec's decision D9 (log 3). -/
def Obligations.ResetState : Prop :=
  State.reset.pc = 0x200 ∧ State.reset.stack = [] ∧ State.reset.fault = none ∧
  State.reset.tickOrigin = none ∧ State.reset.ticksDone = 0 ∧
  (∀ r, State.reset.getV r = 0) ∧ State.reset.i = 0 ∧ State.reset.dt = 0 ∧ State.reset.st = 0 ∧
  (List.range 40).map State.reset.read1 = fontBytesLow ∧
  (List.range 40).map (fun k => State.reset.read1 (40 + k)) = fontBytesHigh ∧
  (∀ a, 80 ≤ a → a < 4096 → State.reset.read1 a = 0)

/-- Construction with any parameters: the font over the fill, every other element at its reset value, no call to the
display; the parameters, the display and the input side are the ones supplied (R161). -/
def Obligations.ConstructionState : Prop :=
  ∀ (c : Config) (d : Display) (inp : Inputs), c.wf = true →
    (construct c d inp).pc = 0x200 ∧ (construct c d inp).stack = [] ∧ (construct c d inp).fault = none ∧
    (construct c d inp).tickOrigin = none ∧ (construct c d inp).ticksDone = 0 ∧
    (∀ r, (construct c d inp).getV r = c.resetV) ∧ (construct c d inp).i = c.resetI ∧
    (construct c d inp).dt = c.resetDT ∧ (construct c d inp).st = c.resetST ∧
    (construct c d inp).cfg = c ∧ (construct c d inp).display = d ∧ (construct c d inp).inputs = inp ∧
    (∀ a, (h : a < c.fontTable.length) → (construct c d inp).read1 a = c.fontTable[a]) ∧
    (∀ a, c.fontTable.length ≤ a → a < 4096 → (construct c d inp).read1 a = c.resetMemFill)

/-- Construction with the default parameters is reset (R160). -/
def Obligations.DefaultConstructionIsReset : Prop :=
  construct Config.default (Display.initial Config.default) Inputs.initial = State.reset

/-- `load`: byte `k` at `EA(0x200 + k)`, the later byte winning where a program is longer than memory, and nothing
but memory changes (R164). -/
def Obligations.LoadWritesMemoryOnly : Prop :=
  ∀ (bytes : List Byte) (s : State),
    (∀ k, (hk : k < bytes.length) → bytes.length ≤ k + 4096 →
      (load bytes s).read1 (0x200 + k) = bytes[k]) ∧
    MemSameOutside 0x200 bytes.length s (load bytes s) ∧
    RegsSameBut [] s (load bytes s) ∧ Frame [.mem] s (load bytes s)

/-- `tick`: the first call sets the origin; a timestamp before the origin, or with no new period, changes nothing;
else both timers go down by the same number of new periods, never below zero (R142); `TS_PER_SEC` is positive
(log 11). -/
def Obligations.TickCountsDown : Prop :=
  ∀ (s : State) (t : Nat), 0 < s.cfg.tsPerSec →
    (s.tickOrigin = none → (tick t s).tickOrigin = some t ∧ (tick t s).ticksDone = 0 ∧
      RegsSameBut [] s (tick t s) ∧ Frame [.tick] s (tick t s)) ∧
    (∀ o, s.tickOrigin = some o →
      (t < o → tick t s = s) ∧
      (o ≤ t → (t - o) * s.cfg.timerHz / s.cfg.tsPerSec ≤ s.ticksDone → tick t s = s) ∧
      (o ≤ t → s.ticksDone < (t - o) * s.cfg.timerHz / s.cfg.tsPerSec →
        (tick t s).dt.toNat = s.dt.toNat - ((t - o) * s.cfg.timerHz / s.cfg.tsPerSec - s.ticksDone) ∧
        (tick t s).st.toNat = s.st.toNat - ((t - o) * s.cfg.timerHz / s.cfg.tsPerSec - s.ticksDone) ∧
        (tick t s).tickOrigin = some o ∧
        (tick t s).ticksDone = (t - o) * s.cfg.timerHz / s.cfg.tsPerSec ∧
        RegsSameBut [] s (tick t s) ∧ Frame [.dt, .st, .tick] s (tick t s)))

/-- No fraction of a period is lost between calls: with the origin set, a tick on the way changes nothing of what a
later tick leaves (R142, R143); `TS_PER_SEC` is positive (log 11). -/
def Obligations.TickOnTheWayIsLost : Prop :=
  ∀ (s : State) (o t1 t2 : Nat), 0 < s.cfg.tsPerSec → s.tickOrigin = some o → t1 ≤ t2 →
    tick t2 (tick t1 s) = tick t2 s
end

