-- ==== Sys2Proof/Laws/Decode.lean ====
section
/-! SUPPORT. The fields of a word as numbers, and the fields of a word built from a pattern of 30_encoding.md: the
small lemmas of R51 that every fact about decoding and encoding rests on. -/

namespace Sys2Proof

/-! The fields as numbers -/

theorem opField_toNat (w : Word) : (opField w).toNat = w.toNat / 0x1000 := by
  simp [opField, BitVec.extractLsb'_toNat, Nat.shiftRight_eq_div_pow]; omega

theorem xField_toNat (w : Word) : (xField w).toNat = w.toNat / 0x100 % 16 := by
  simp [xField, BitVec.extractLsb'_toNat, Nat.shiftRight_eq_div_pow]

theorem yField_toNat (w : Word) : (yField w).toNat = w.toNat / 0x10 % 16 := by
  simp [yField, BitVec.extractLsb'_toNat, Nat.shiftRight_eq_div_pow]

theorem nField_toNat (w : Word) : (nField w).toNat = w.toNat % 16 := by
  simp [nField, BitVec.extractLsb'_toNat]

theorem kkField_toNat (w : Word) : (kkField w).toNat = w.toNat % 256 := by
  simp [kkField, BitVec.extractLsb'_toNat]

theorem nnnField_toNat (w : Word) : (nnnField w).toNat = w.toNat % 4096 := by
  simp [nnnField, BitVec.extractLsb'_toNat]

/-! The three patterns as numbers -/

theorem pattern_nnn_toNat (o : BitVec 4) (a : Addr) : (o ++ a : Word).toNat = o.toNat * 4096 + a.toNat := by
  rw [BitVec.toNat_append, ← Nat.shiftLeft_add_eq_or_of_lt a.isLt, Nat.shiftLeft_eq]

theorem pattern_xkk_toNat (o x : BitVec 4) (k : Byte) :
    (o ++ x ++ k : Word).toNat = o.toNat * 4096 + x.toNat * 256 + k.toNat := by
  have h1 : (o ++ x : BitVec 8).toNat = o.toNat * 16 + x.toNat := by
    rw [BitVec.toNat_append, ← Nat.shiftLeft_add_eq_or_of_lt x.isLt, Nat.shiftLeft_eq]
  rw [BitVec.toNat_append, ← Nat.shiftLeft_add_eq_or_of_lt k.isLt, Nat.shiftLeft_eq, h1]; omega

theorem pattern_xyn_toNat (o x y n : BitVec 4) :
    (o ++ x ++ y ++ n : Word).toNat = o.toNat * 4096 + x.toNat * 256 + y.toNat * 16 + n.toNat := by
  have h1 : (o ++ x : BitVec 8).toNat = o.toNat * 16 + x.toNat := by
    rw [BitVec.toNat_append, ← Nat.shiftLeft_add_eq_or_of_lt x.isLt, Nat.shiftLeft_eq]
  have h2 : (o ++ x ++ y : BitVec 12).toNat = o.toNat * 256 + x.toNat * 16 + y.toNat := by
    rw [BitVec.toNat_append, ← Nat.shiftLeft_add_eq_or_of_lt y.isLt, Nat.shiftLeft_eq, h1]; omega
  rw [BitVec.toNat_append, ← Nat.shiftLeft_add_eq_or_of_lt n.isLt, Nat.shiftLeft_eq, h2]; omega

/-! The fields of a pattern -/

@[simp] theorem opField_nnn (o : BitVec 4) (a : Addr) : opField (o ++ a : Word) = o :=
  BitVec.eq_of_toNat_eq (by rw [opField_toNat, pattern_nnn_toNat]; omega)

@[simp] theorem nnnField_nnn (o : BitVec 4) (a : Addr) : nnnField (o ++ a : Word) = a :=
  BitVec.eq_of_toNat_eq (by rw [nnnField_toNat, pattern_nnn_toNat]; omega)

@[simp] theorem opField_xkk (o x : BitVec 4) (k : Byte) : opField (o ++ x ++ k : Word) = o :=
  BitVec.eq_of_toNat_eq (by rw [opField_toNat, pattern_xkk_toNat]; omega)

@[simp] theorem xField_xkk (o x : BitVec 4) (k : Byte) : xField (o ++ x ++ k : Word) = x :=
  BitVec.eq_of_toNat_eq (by rw [xField_toNat, pattern_xkk_toNat]; omega)

@[simp] theorem kkField_xkk (o x : BitVec 4) (k : Byte) : kkField (o ++ x ++ k : Word) = k :=
  BitVec.eq_of_toNat_eq (by rw [kkField_toNat, pattern_xkk_toNat]; omega)

@[simp] theorem opField_xyn (o x y n : BitVec 4) : opField (o ++ x ++ y ++ n : Word) = o :=
  BitVec.eq_of_toNat_eq (by rw [opField_toNat, pattern_xyn_toNat]; omega)

@[simp] theorem xField_xyn (o x y n : BitVec 4) : xField (o ++ x ++ y ++ n : Word) = x :=
  BitVec.eq_of_toNat_eq (by rw [xField_toNat, pattern_xyn_toNat]; omega)

@[simp] theorem yField_xyn (o x y n : BitVec 4) : yField (o ++ x ++ y ++ n : Word) = y :=
  BitVec.eq_of_toNat_eq (by rw [yField_toNat, pattern_xyn_toNat]; omega)

@[simp] theorem nField_xyn (o x y n : BitVec 4) : nField (o ++ x ++ y ++ n : Word) = n :=
  BitVec.eq_of_toNat_eq (by rw [nField_toNat, pattern_xyn_toNat]; omega)

/-! Every word is the pattern of its own fields -/

theorem word_eq_nnn (w : Word) : (opField w ++ nnnField w : Word) = w :=
  BitVec.eq_of_toNat_eq (by rw [pattern_nnn_toNat, opField_toNat, nnnField_toNat]; omega)

theorem word_eq_xkk (w : Word) : (opField w ++ xField w ++ kkField w : Word) = w :=
  BitVec.eq_of_toNat_eq (by rw [pattern_xkk_toNat, opField_toNat, xField_toNat, kkField_toNat]; omega)

theorem word_eq_xyn (w : Word) : (opField w ++ xField w ++ yField w ++ nField w : Word) = w :=
  BitVec.eq_of_toNat_eq (by
    rw [pattern_xyn_toNat, opField_toNat, xField_toNat, yField_toNat, nField_toNat]; omega)

/-! Bytes -/

theorem wordOfBytes_toNat (hi lo : Byte) : (wordOfBytes hi lo).toNat = hi.toNat * 256 + lo.toNat := by
  unfold wordOfBytes
  rw [BitVec.toNat_append, ← Nat.shiftLeft_add_eq_or_of_lt lo.isLt, Nat.shiftLeft_eq]

/-- A word is the word of its two bytes (R41). -/
@[simp] theorem wordOfBytes_highByte_lowByte (w : Word) : wordOfBytes (highByte w) (lowByte w) = w :=
  BitVec.eq_of_toNat_eq (by
    rw [wordOfBytes_toNat]
    simp [highByte, lowByte, BitVec.extractLsb'_toNat, Nat.shiftRight_eq_div_pow]; omega)

/-- The decoder's answer to a row's word is the decoding of that word. -/
theorem decodeTableWord_eq (nbits w : Nat) (i : Instr) :
    decodeTableWord nbits w = some i ↔ decodeWord (tableWord nbits w) = .instr i := by
  simp only [decodeTableWord, decodeBytes, wordOfBytes_highByte_lowByte]
  cases decodeWord (tableWord nbits w) <;> simp

end Sys2Proof
end

