-- ==== Sys2Proof/Laws/Memory.lean ====
section
/-! SUPPORT. The laws of memory: what a read gives after a write, and that every operation keeps the canonical
form. -/

namespace Sys2Proof.Machine

theorem ea_lt (a : Nat) : ea a < memSize := Nat.mod_lt _ (by decide)

@[simp] theorem ea_ea (a : Nat) : ea (ea a) = ea a := by simp [ea]

/-! Looking up -/

theorem Memory.lookup_erase (m : Memory) (a b : Nat) :
    Memory.lookup (Memory.erase m a) b = if b = a then none else Memory.lookup m b := by
  induction m with
  | nil => simp [Memory.erase, Memory.lookup]
  | cons c rest ih =>
    obtain ⟨k, v⟩ := c
    unfold Memory.erase at ih ⊢
    by_cases hk : k = a
    · subst hk
      simp only [List.filter_cons, bne_self_eq_false, Bool.false_eq_true, if_false, ih, Memory.lookup]
      by_cases hb : b = k
      · simp [hb]
      · simp [hb, Ne.symm hb]
    · have hk' : (k != a) = true := by simp [hk]
      simp only [List.filter_cons, hk', if_true, Memory.lookup, ih]
      by_cases hb : k = b
      · subst hb; simp [hk]
      · simp [hb]

theorem Memory.lookup_insert (m : Memory) (a b : Nat) (v : Byte) (h : Memory.lookup m a = none) :
    Memory.lookup (Memory.insert m a v) b = if b = a then some v else Memory.lookup m b := by
  induction m with
  | nil =>
    by_cases hb : b = a
    · simp [Memory.insert, Memory.lookup, hb]
    · simp [Memory.insert, Memory.lookup, hb, Ne.symm hb]
  | cons c rest ih =>
    obtain ⟨k, u⟩ := c
    simp only [Memory.lookup] at h
    by_cases hk : k = a
    · simp [hk] at h
    · simp only [hk, if_false] at h
      unfold Memory.insert
      by_cases hlt : a < k
      · simp only [hlt, if_true, Memory.lookup]
        by_cases hb : b = a
        · simp [hb]
        · simp [hb, Ne.symm hb]
      · simp only [hlt, if_false, Memory.lookup, ih h]
        by_cases hb : k = b
        · subst hb; simp [hk]
        · simp [hb]

/-- The law of one cell: a read gives the last value written to it, a write leaves every other cell alone. -/
theorem Memory.get_set (m : Memory) (a b : Nat) (v : Byte) :
    Memory.get (Memory.set m a v) b = if b = a then v else Memory.get m b := by
  unfold Memory.get Memory.set
  by_cases hv : v = Memory.unlisted a
  · by_cases hb : b = a
    · subst hb; simp [hv, Memory.lookup_erase]
    · simp [hv, Memory.lookup_erase, hb]
  · have hn : Memory.lookup (Memory.erase m a) a = none := by simp [Memory.lookup_erase]
    by_cases hb : b = a
    · subst hb; simp [hv, Memory.lookup_insert _ _ _ _ hn]
    · simp [hv, Memory.lookup_insert _ _ _ _ hn, Memory.lookup_erase, hb]

/-- `MemRead` after `MemWrite` (R32, R33). -/
theorem memRead1_memWrite1 (m : Memory) (a b v : Nat) :
    memRead1 (memWrite1 m a v) b = if ea b = ea a then BitVec.ofNat 8 v else memRead1 m b := by
  simp [memRead1, memWrite1, Memory.get_set]

/-- A read sees only the reduced address (R31). -/
theorem memRead1_ea (m : Memory) (a : Nat) : memRead1 m (ea a) = memRead1 m a := by simp [memRead1]

/-! The canonical form -/

theorem Memory.erase_wf {m : Memory} (h : Memory.wf m) (a : Nat) : Memory.wf (Memory.erase m a) :=
  ⟨h.1.filter _, fun c hc => h.2 c (List.mem_filter.mp hc).1⟩

theorem Memory.mem_insert {m : Memory} {a : Nat} {v : Byte} {c : Host.Cell} :
    c ∈ Memory.insert m a v ↔ c = (a, v) ∨ c ∈ m := by
  induction m with
  | nil => simp [Memory.insert]
  | cons d rest ih =>
    unfold Memory.insert
    split
    · simp
    · simp only [List.mem_cons, ih]; tauto

theorem Memory.insert_wf {m : Memory} (h : Memory.wf m) {a : Nat} {v : Byte} (ha : a < memSize)
    (hv : v ≠ Memory.unlisted a) (hn : ∀ c ∈ m, c.1 ≠ a) : Memory.wf (Memory.insert m a v) := by
  refine ⟨?_, fun c hc => ?_⟩
  · have hs := h.1
    clear h
    induction m with
    | nil => simp [Memory.insert]
    | cons d rest ih =>
      obtain ⟨hd, hrest⟩ := List.pairwise_cons.mp hs
      unfold Memory.insert
      split
      · rename_i hlt
        refine List.pairwise_cons.mpr ⟨fun c hc => ?_, hs⟩
        rcases List.mem_cons.mp hc with rfl | hc
        · exact hlt
        · exact Nat.lt_trans hlt (hd c hc)
      · rename_i hge
        refine List.pairwise_cons.mpr ⟨fun c hc => ?_, ih (fun c hc => hn c (List.mem_cons_of_mem _ hc)) hrest⟩
        rcases Memory.mem_insert.mp hc with rfl | hc
        · have := hn d (List.mem_cons_self ..)
          simp only; omega
        · exact hd c hc
  · rcases Memory.mem_insert.mp hc with rfl | hc
    · exact ⟨ha, hv⟩
    · exact h.2 c hc

theorem Memory.set_wf {m : Memory} (h : Memory.wf m) {a : Nat} (ha : a < memSize) (v : Byte) :
    Memory.wf (Memory.set m a v) := by
  unfold Memory.set
  split
  · exact Memory.erase_wf h a
  · rename_i hv
    exact Memory.insert_wf (Memory.erase_wf h a) ha hv (fun c hc => by
      have := (List.mem_filter.mp hc).2
      simpa using this)

theorem memWrite1_wf {m : Memory} (h : Memory.wf m) (a v : Nat) : Memory.wf (memWrite1 m a v) :=
  Memory.set_wf h (ea_lt a) _

theorem memWrite2_wf {m : Memory} (h : Memory.wf m) (a v : Nat) : Memory.wf (memWrite2 m a v) :=
  memWrite1_wf (memWrite1_wf h _ _) _ _

theorem bulkWrite_wf {m : Memory} (h : Memory.wf m) (a : Nat) (bytes : List Nat) :
    Memory.wf (bulkWrite m a bytes) := by
  induction bytes generalizing m a with
  | nil => exact h
  | cons b rest ih => exact ih (memWrite1_wf h a b) (a + 1)

theorem nil_wf : Memory.wf [] := ⟨List.Pairwise.nil, fun _ h => by cases h⟩

/-! Two memories in canonical form that read alike are the same list. -/

theorem Memory.lookup_none_of_lt {m : Memory} {a : Nat} (h : ∀ c ∈ m, a < c.1) : Memory.lookup m a = none := by
  induction m with
  | nil => rfl
  | cons c rest ih =>
    have := h c (List.mem_cons_self ..)
    have hk : c.1 ≠ a := by omega
    obtain ⟨k, v⟩ := c
    simp only [Memory.lookup]
    rw [if_neg hk, ih (fun d hd => h d (List.mem_cons_of_mem _ hd))]

/-- What a canonical memory lists for an address is fixed by what it reads as there. -/
theorem Memory.lookup_of_get {m : Memory} (h : Memory.wf m) (a : Nat) :
    Memory.lookup m a = if Memory.get m a = Memory.unlisted a then none else some (Memory.get m a) := by
  have hm : ∀ (l : Memory) (v : Byte), Memory.lookup l a = some v → (a, v) ∈ l := by
    intro l v hl
    induction l with
    | nil => cases hl
    | cons c rest ih =>
      obtain ⟨k, u⟩ := c
      simp only [Memory.lookup] at hl
      by_cases hk : k = a
      · rw [if_pos hk] at hl; cases hl; subst hk; exact List.mem_cons_self ..
      · rw [if_neg hk] at hl; exact List.mem_cons_of_mem _ (ih hl)
  cases hl : Memory.lookup m a with
  | none => simp [Memory.get, hl]
  | some v =>
    have := (h.2 _ (hm m v hl)).2
    simp only at this
    simp [Memory.get, hl, this]

theorem Memory.ext_of_lookup {m n : Memory} (hm : m.Pairwise (fun c d => c.1 < d.1))
    (hn : n.Pairwise (fun c d => c.1 < d.1)) (h : ∀ a, Memory.lookup m a = Memory.lookup n a) : m = n := by
  induction m generalizing n with
  | nil =>
    cases n with
    | nil => rfl
    | cons d rest => have := h d.1; simp [Memory.lookup] at this
  | cons c rest ih =>
    obtain ⟨hc, hrest⟩ := List.pairwise_cons.mp hm
    cases n with
    | nil => have := h c.1; simp [Memory.lookup] at this
    | cons d rest' =>
      obtain ⟨hd, hrest'⟩ := List.pairwise_cons.mp hn
      obtain ⟨k, u⟩ := c
      obtain ⟨l, w⟩ := d
      simp only at hc hd
      have hkl : k = l := by
        rcases Nat.lt_trichotomy k l with hlt | heq | hgt
        · have e := h k
          have : Memory.lookup ((l, w) :: rest') k = none := Memory.lookup_none_of_lt (fun x hx => by
            rcases List.mem_cons.mp hx with rfl | hx
            · exact hlt
            · exact Nat.lt_trans hlt (hd x hx))
          rw [this] at e
          simp [Memory.lookup] at e
        · exact heq
        · have e := h l
          have : Memory.lookup ((k, u) :: rest) l = none := Memory.lookup_none_of_lt (fun x hx => by
            rcases List.mem_cons.mp hx with rfl | hx
            · exact hgt
            · exact Nat.lt_trans hgt (hc x hx))
          rw [this] at e
          simp [Memory.lookup] at e
      subst hkl
      have huw : u = w := by have e := h k; simpa [Memory.lookup] using e
      subst huw
      congr 1
      refine ih hrest hrest' (fun a => ?_)
      by_cases ha : a = k
      · subst ha
        rw [Memory.lookup_none_of_lt hc, Memory.lookup_none_of_lt hd]
      · have e := h a
        simpa [Memory.lookup, Ne.symm ha] using e

theorem Memory.lookup_none_of_not_mem {m : Memory} {a : Nat} (h : ∀ c ∈ m, c.1 ≠ a) : Memory.lookup m a = none := by
  induction m with
  | nil => rfl
  | cons c rest ih =>
    obtain ⟨k, v⟩ := c
    simp only [Memory.lookup]
    rw [if_neg (h (k, v) (List.mem_cons_self ..)), ih (fun d hd => h d (List.mem_cons_of_mem _ hd))]

/-- Canonical memories that give the same byte at each of the 4096 cells are equal. -/
theorem Memory.ext {m n : Memory} (hm : Memory.wf m) (hn : Memory.wf n)
    (h : ∀ a, a < memSize → Memory.get m a = Memory.get n a) : m = n := by
  refine Memory.ext_of_lookup hm.1 hn.1 (fun a => ?_)
  by_cases ha : a < memSize
  · rw [Memory.lookup_of_get hm, Memory.lookup_of_get hn, h a ha]
  · rw [Memory.lookup_none_of_not_mem (fun c hc e => ha (by rw [← e]; exact (hm.2 c hc).1)),
      Memory.lookup_none_of_not_mem (fun c hc e => ha (by rw [← e]; exact (hn.2 c hc).1))]

/-- Below 4096 the cell is the address. -/
theorem memRead1_of_lt (m : Memory) {a : Nat} (h : a < memSize) : memRead1 m a = Memory.get m a := by
  rw [memRead1, ea, Nat.mod_eq_of_lt h]

end Sys2Proof.Machine
end

