-- ==== Sys2Proof/Laws/State.lean ====
section
/-! SUPPORT. One lemma per field per update of the state, each true by rfl, and the laws of reading a register after
writing one. -/

namespace Sys2Proof.Machine

/-! `State.setV` -/

@[simp] theorem State.setV_cfg (s : State) (x : Reg) (b : Byte) : (s.setV x b).cfg = s.cfg := rfl
@[simp] theorem State.setV_v (s : State) (x : Reg) (b : Byte) : (s.setV x b).v = s.v.set x.toNat b x.isLt := rfl
@[simp] theorem State.setV_i (s : State) (x : Reg) (b : Byte) : (s.setV x b).i = s.i := rfl
@[simp] theorem State.setV_pc (s : State) (x : Reg) (b : Byte) : (s.setV x b).pc = s.pc := rfl
@[simp] theorem State.setV_stack (s : State) (x : Reg) (b : Byte) : (s.setV x b).stack = s.stack := rfl
@[simp] theorem State.setV_dt (s : State) (x : Reg) (b : Byte) : (s.setV x b).dt = s.dt := rfl
@[simp] theorem State.setV_st (s : State) (x : Reg) (b : Byte) : (s.setV x b).st = s.st := rfl
@[simp] theorem State.setV_mem (s : State) (x : Reg) (b : Byte) : (s.setV x b).mem = s.mem := rfl
@[simp] theorem State.setV_tickOrigin (s : State) (x : Reg) (b : Byte) : (s.setV x b).tickOrigin = s.tickOrigin := rfl
@[simp] theorem State.setV_ticksDone (s : State) (x : Reg) (b : Byte) : (s.setV x b).ticksDone = s.ticksDone := rfl
@[simp] theorem State.setV_fault (s : State) (x : Reg) (b : Byte) : (s.setV x b).fault = s.fault := rfl
@[simp] theorem State.setV_display (s : State) (x : Reg) (b : Byte) : (s.setV x b).display = s.display := rfl
@[simp] theorem State.setV_inputs (s : State) (x : Reg) (b : Byte) : (s.setV x b).inputs = s.inputs := rfl
@[simp] theorem State.setV_read1 (s : State) (x : Reg) (b : Byte) (a : Nat) : (s.setV x b).read1 a = s.read1 a := rfl

/-! `State.setI` -/

@[simp] theorem State.setI_cfg (s : State) (w : Word) : (s.setI w).cfg = s.cfg := rfl
@[simp] theorem State.setI_v (s : State) (w : Word) : (s.setI w).v = s.v := rfl
@[simp] theorem State.setI_i (s : State) (w : Word) : (s.setI w).i = w := rfl
@[simp] theorem State.setI_pc (s : State) (w : Word) : (s.setI w).pc = s.pc := rfl
@[simp] theorem State.setI_stack (s : State) (w : Word) : (s.setI w).stack = s.stack := rfl
@[simp] theorem State.setI_dt (s : State) (w : Word) : (s.setI w).dt = s.dt := rfl
@[simp] theorem State.setI_st (s : State) (w : Word) : (s.setI w).st = s.st := rfl
@[simp] theorem State.setI_mem (s : State) (w : Word) : (s.setI w).mem = s.mem := rfl
@[simp] theorem State.setI_tickOrigin (s : State) (w : Word) : (s.setI w).tickOrigin = s.tickOrigin := rfl
@[simp] theorem State.setI_ticksDone (s : State) (w : Word) : (s.setI w).ticksDone = s.ticksDone := rfl
@[simp] theorem State.setI_fault (s : State) (w : Word) : (s.setI w).fault = s.fault := rfl
@[simp] theorem State.setI_display (s : State) (w : Word) : (s.setI w).display = s.display := rfl
@[simp] theorem State.setI_inputs (s : State) (w : Word) : (s.setI w).inputs = s.inputs := rfl
@[simp] theorem State.setI_getV (s : State) (w : Word) (r : Reg) : (s.setI w).getV r = s.getV r := rfl
@[simp] theorem State.setI_read1 (s : State) (w : Word) (a : Nat) : (s.setI w).read1 a = s.read1 a := rfl

/-! `State.setPc` -/

@[simp] theorem State.setPc_cfg (s : State) (w : Word) : (s.setPc w).cfg = s.cfg := rfl
@[simp] theorem State.setPc_v (s : State) (w : Word) : (s.setPc w).v = s.v := rfl
@[simp] theorem State.setPc_i (s : State) (w : Word) : (s.setPc w).i = s.i := rfl
@[simp] theorem State.setPc_pc (s : State) (w : Word) : (s.setPc w).pc = w := rfl
@[simp] theorem State.setPc_stack (s : State) (w : Word) : (s.setPc w).stack = s.stack := rfl
@[simp] theorem State.setPc_dt (s : State) (w : Word) : (s.setPc w).dt = s.dt := rfl
@[simp] theorem State.setPc_st (s : State) (w : Word) : (s.setPc w).st = s.st := rfl
@[simp] theorem State.setPc_mem (s : State) (w : Word) : (s.setPc w).mem = s.mem := rfl
@[simp] theorem State.setPc_tickOrigin (s : State) (w : Word) : (s.setPc w).tickOrigin = s.tickOrigin := rfl
@[simp] theorem State.setPc_ticksDone (s : State) (w : Word) : (s.setPc w).ticksDone = s.ticksDone := rfl
@[simp] theorem State.setPc_fault (s : State) (w : Word) : (s.setPc w).fault = s.fault := rfl
@[simp] theorem State.setPc_display (s : State) (w : Word) : (s.setPc w).display = s.display := rfl
@[simp] theorem State.setPc_inputs (s : State) (w : Word) : (s.setPc w).inputs = s.inputs := rfl
@[simp] theorem State.setPc_getV (s : State) (w : Word) (r : Reg) : (s.setPc w).getV r = s.getV r := rfl
@[simp] theorem State.setPc_read1 (s : State) (w : Word) (a : Nat) : (s.setPc w).read1 a = s.read1 a := rfl

/-! `State.setStack` -/

@[simp] theorem State.setStack_cfg (s : State) (l : List Word) : (s.setStack l).cfg = s.cfg := rfl
@[simp] theorem State.setStack_v (s : State) (l : List Word) : (s.setStack l).v = s.v := rfl
@[simp] theorem State.setStack_i (s : State) (l : List Word) : (s.setStack l).i = s.i := rfl
@[simp] theorem State.setStack_pc (s : State) (l : List Word) : (s.setStack l).pc = s.pc := rfl
@[simp] theorem State.setStack_stack (s : State) (l : List Word) : (s.setStack l).stack = l := rfl
@[simp] theorem State.setStack_dt (s : State) (l : List Word) : (s.setStack l).dt = s.dt := rfl
@[simp] theorem State.setStack_st (s : State) (l : List Word) : (s.setStack l).st = s.st := rfl
@[simp] theorem State.setStack_mem (s : State) (l : List Word) : (s.setStack l).mem = s.mem := rfl
@[simp] theorem State.setStack_tickOrigin (s : State) (l : List Word) : (s.setStack l).tickOrigin = s.tickOrigin := rfl
@[simp] theorem State.setStack_ticksDone (s : State) (l : List Word) : (s.setStack l).ticksDone = s.ticksDone := rfl
@[simp] theorem State.setStack_fault (s : State) (l : List Word) : (s.setStack l).fault = s.fault := rfl
@[simp] theorem State.setStack_display (s : State) (l : List Word) : (s.setStack l).display = s.display := rfl
@[simp] theorem State.setStack_inputs (s : State) (l : List Word) : (s.setStack l).inputs = s.inputs := rfl
@[simp] theorem State.setStack_getV (s : State) (l : List Word) (r : Reg) : (s.setStack l).getV r = s.getV r := rfl
@[simp] theorem State.setStack_read1 (s : State) (l : List Word) (a : Nat) : (s.setStack l).read1 a = s.read1 a := rfl

/-! `State.setDT` -/

@[simp] theorem State.setDT_cfg (s : State) (b : Byte) : (s.setDT b).cfg = s.cfg := rfl
@[simp] theorem State.setDT_v (s : State) (b : Byte) : (s.setDT b).v = s.v := rfl
@[simp] theorem State.setDT_i (s : State) (b : Byte) : (s.setDT b).i = s.i := rfl
@[simp] theorem State.setDT_pc (s : State) (b : Byte) : (s.setDT b).pc = s.pc := rfl
@[simp] theorem State.setDT_stack (s : State) (b : Byte) : (s.setDT b).stack = s.stack := rfl
@[simp] theorem State.setDT_dt (s : State) (b : Byte) : (s.setDT b).dt = b := rfl
@[simp] theorem State.setDT_st (s : State) (b : Byte) : (s.setDT b).st = s.st := rfl
@[simp] theorem State.setDT_mem (s : State) (b : Byte) : (s.setDT b).mem = s.mem := rfl
@[simp] theorem State.setDT_tickOrigin (s : State) (b : Byte) : (s.setDT b).tickOrigin = s.tickOrigin := rfl
@[simp] theorem State.setDT_ticksDone (s : State) (b : Byte) : (s.setDT b).ticksDone = s.ticksDone := rfl
@[simp] theorem State.setDT_fault (s : State) (b : Byte) : (s.setDT b).fault = s.fault := rfl
@[simp] theorem State.setDT_display (s : State) (b : Byte) : (s.setDT b).display = s.display := rfl
@[simp] theorem State.setDT_inputs (s : State) (b : Byte) : (s.setDT b).inputs = s.inputs := rfl
@[simp] theorem State.setDT_getV (s : State) (b : Byte) (r : Reg) : (s.setDT b).getV r = s.getV r := rfl
@[simp] theorem State.setDT_read1 (s : State) (b : Byte) (a : Nat) : (s.setDT b).read1 a = s.read1 a := rfl

/-! `State.setST` -/

@[simp] theorem State.setST_cfg (s : State) (b : Byte) : (s.setST b).cfg = s.cfg := rfl
@[simp] theorem State.setST_v (s : State) (b : Byte) : (s.setST b).v = s.v := rfl
@[simp] theorem State.setST_i (s : State) (b : Byte) : (s.setST b).i = s.i := rfl
@[simp] theorem State.setST_pc (s : State) (b : Byte) : (s.setST b).pc = s.pc := rfl
@[simp] theorem State.setST_stack (s : State) (b : Byte) : (s.setST b).stack = s.stack := rfl
@[simp] theorem State.setST_dt (s : State) (b : Byte) : (s.setST b).dt = s.dt := rfl
@[simp] theorem State.setST_st (s : State) (b : Byte) : (s.setST b).st = b := rfl
@[simp] theorem State.setST_mem (s : State) (b : Byte) : (s.setST b).mem = s.mem := rfl
@[simp] theorem State.setST_tickOrigin (s : State) (b : Byte) : (s.setST b).tickOrigin = s.tickOrigin := rfl
@[simp] theorem State.setST_ticksDone (s : State) (b : Byte) : (s.setST b).ticksDone = s.ticksDone := rfl
@[simp] theorem State.setST_fault (s : State) (b : Byte) : (s.setST b).fault = s.fault := rfl
@[simp] theorem State.setST_display (s : State) (b : Byte) : (s.setST b).display = s.display := rfl
@[simp] theorem State.setST_inputs (s : State) (b : Byte) : (s.setST b).inputs = s.inputs := rfl
@[simp] theorem State.setST_getV (s : State) (b : Byte) (r : Reg) : (s.setST b).getV r = s.getV r := rfl
@[simp] theorem State.setST_read1 (s : State) (b : Byte) (a : Nat) : (s.setST b).read1 a = s.read1 a := rfl

/-! `State.setMem` -/

@[simp] theorem State.setMem_cfg (s : State) (m : Memory) : (s.setMem m).cfg = s.cfg := rfl
@[simp] theorem State.setMem_v (s : State) (m : Memory) : (s.setMem m).v = s.v := rfl
@[simp] theorem State.setMem_i (s : State) (m : Memory) : (s.setMem m).i = s.i := rfl
@[simp] theorem State.setMem_pc (s : State) (m : Memory) : (s.setMem m).pc = s.pc := rfl
@[simp] theorem State.setMem_stack (s : State) (m : Memory) : (s.setMem m).stack = s.stack := rfl
@[simp] theorem State.setMem_dt (s : State) (m : Memory) : (s.setMem m).dt = s.dt := rfl
@[simp] theorem State.setMem_st (s : State) (m : Memory) : (s.setMem m).st = s.st := rfl
@[simp] theorem State.setMem_mem (s : State) (m : Memory) : (s.setMem m).mem = m := rfl
@[simp] theorem State.setMem_tickOrigin (s : State) (m : Memory) : (s.setMem m).tickOrigin = s.tickOrigin := rfl
@[simp] theorem State.setMem_ticksDone (s : State) (m : Memory) : (s.setMem m).ticksDone = s.ticksDone := rfl
@[simp] theorem State.setMem_fault (s : State) (m : Memory) : (s.setMem m).fault = s.fault := rfl
@[simp] theorem State.setMem_display (s : State) (m : Memory) : (s.setMem m).display = s.display := rfl
@[simp] theorem State.setMem_inputs (s : State) (m : Memory) : (s.setMem m).inputs = s.inputs := rfl
@[simp] theorem State.setMem_getV (s : State) (m : Memory) (r : Reg) : (s.setMem m).getV r = s.getV r := rfl

/-! `State.setTick` -/

@[simp] theorem State.setTick_cfg (s : State) (o : Option Nat) (n : Nat) : (s.setTick o n).cfg = s.cfg := rfl
@[simp] theorem State.setTick_v (s : State) (o : Option Nat) (n : Nat) : (s.setTick o n).v = s.v := rfl
@[simp] theorem State.setTick_i (s : State) (o : Option Nat) (n : Nat) : (s.setTick o n).i = s.i := rfl
@[simp] theorem State.setTick_pc (s : State) (o : Option Nat) (n : Nat) : (s.setTick o n).pc = s.pc := rfl
@[simp] theorem State.setTick_stack (s : State) (o : Option Nat) (n : Nat) : (s.setTick o n).stack = s.stack := rfl
@[simp] theorem State.setTick_dt (s : State) (o : Option Nat) (n : Nat) : (s.setTick o n).dt = s.dt := rfl
@[simp] theorem State.setTick_st (s : State) (o : Option Nat) (n : Nat) : (s.setTick o n).st = s.st := rfl
@[simp] theorem State.setTick_mem (s : State) (o : Option Nat) (n : Nat) : (s.setTick o n).mem = s.mem := rfl
@[simp] theorem State.setTick_tickOrigin (s : State) (o : Option Nat) (n : Nat) : (s.setTick o n).tickOrigin = o := rfl
@[simp] theorem State.setTick_ticksDone (s : State) (o : Option Nat) (n : Nat) : (s.setTick o n).ticksDone = n := rfl
@[simp] theorem State.setTick_fault (s : State) (o : Option Nat) (n : Nat) : (s.setTick o n).fault = s.fault := rfl
@[simp] theorem State.setTick_display (s : State) (o : Option Nat) (n : Nat) : (s.setTick o n).display = s.display := rfl
@[simp] theorem State.setTick_inputs (s : State) (o : Option Nat) (n : Nat) : (s.setTick o n).inputs = s.inputs := rfl
@[simp] theorem State.setTick_getV (s : State) (o : Option Nat) (n : Nat) (r : Reg) : (s.setTick o n).getV r = s.getV r := rfl
@[simp] theorem State.setTick_read1 (s : State) (o : Option Nat) (n : Nat) (a : Nat) : (s.setTick o n).read1 a = s.read1 a := rfl

/-! `State.setDisplay` -/

@[simp] theorem State.setDisplay_cfg (s : State) (d : Display) : (s.setDisplay d).cfg = s.cfg := rfl
@[simp] theorem State.setDisplay_v (s : State) (d : Display) : (s.setDisplay d).v = s.v := rfl
@[simp] theorem State.setDisplay_i (s : State) (d : Display) : (s.setDisplay d).i = s.i := rfl
@[simp] theorem State.setDisplay_pc (s : State) (d : Display) : (s.setDisplay d).pc = s.pc := rfl
@[simp] theorem State.setDisplay_stack (s : State) (d : Display) : (s.setDisplay d).stack = s.stack := rfl
@[simp] theorem State.setDisplay_dt (s : State) (d : Display) : (s.setDisplay d).dt = s.dt := rfl
@[simp] theorem State.setDisplay_st (s : State) (d : Display) : (s.setDisplay d).st = s.st := rfl
@[simp] theorem State.setDisplay_mem (s : State) (d : Display) : (s.setDisplay d).mem = s.mem := rfl
@[simp] theorem State.setDisplay_tickOrigin (s : State) (d : Display) : (s.setDisplay d).tickOrigin = s.tickOrigin := rfl
@[simp] theorem State.setDisplay_ticksDone (s : State) (d : Display) : (s.setDisplay d).ticksDone = s.ticksDone := rfl
@[simp] theorem State.setDisplay_fault (s : State) (d : Display) : (s.setDisplay d).fault = s.fault := rfl
@[simp] theorem State.setDisplay_display (s : State) (d : Display) : (s.setDisplay d).display = d := rfl
@[simp] theorem State.setDisplay_inputs (s : State) (d : Display) : (s.setDisplay d).inputs = s.inputs := rfl
@[simp] theorem State.setDisplay_getV (s : State) (d : Display) (r : Reg) : (s.setDisplay d).getV r = s.getV r := rfl
@[simp] theorem State.setDisplay_read1 (s : State) (d : Display) (a : Nat) : (s.setDisplay d).read1 a = s.read1 a := rfl

/-! `State.setInputs` -/

@[simp] theorem State.setInputs_cfg (s : State) (inp : Inputs) : (s.setInputs inp).cfg = s.cfg := rfl
@[simp] theorem State.setInputs_v (s : State) (inp : Inputs) : (s.setInputs inp).v = s.v := rfl
@[simp] theorem State.setInputs_i (s : State) (inp : Inputs) : (s.setInputs inp).i = s.i := rfl
@[simp] theorem State.setInputs_pc (s : State) (inp : Inputs) : (s.setInputs inp).pc = s.pc := rfl
@[simp] theorem State.setInputs_stack (s : State) (inp : Inputs) : (s.setInputs inp).stack = s.stack := rfl
@[simp] theorem State.setInputs_dt (s : State) (inp : Inputs) : (s.setInputs inp).dt = s.dt := rfl
@[simp] theorem State.setInputs_st (s : State) (inp : Inputs) : (s.setInputs inp).st = s.st := rfl
@[simp] theorem State.setInputs_mem (s : State) (inp : Inputs) : (s.setInputs inp).mem = s.mem := rfl
@[simp] theorem State.setInputs_tickOrigin (s : State) (inp : Inputs) : (s.setInputs inp).tickOrigin = s.tickOrigin := rfl
@[simp] theorem State.setInputs_ticksDone (s : State) (inp : Inputs) : (s.setInputs inp).ticksDone = s.ticksDone := rfl
@[simp] theorem State.setInputs_fault (s : State) (inp : Inputs) : (s.setInputs inp).fault = s.fault := rfl
@[simp] theorem State.setInputs_display (s : State) (inp : Inputs) : (s.setInputs inp).display = s.display := rfl
@[simp] theorem State.setInputs_inputs (s : State) (inp : Inputs) : (s.setInputs inp).inputs = inp := rfl
@[simp] theorem State.setInputs_getV (s : State) (inp : Inputs) (r : Reg) : (s.setInputs inp).getV r = s.getV r := rfl
@[simp] theorem State.setInputs_read1 (s : State) (inp : Inputs) (a : Nat) : (s.setInputs inp).read1 a = s.read1 a := rfl

/-! `State.raise` -/

@[simp] theorem State.raise_cfg (s : State) (f : Fault) : (s.raise f).cfg = s.cfg := rfl
@[simp] theorem State.raise_v (s : State) (f : Fault) : (s.raise f).v = s.v := rfl
@[simp] theorem State.raise_i (s : State) (f : Fault) : (s.raise f).i = s.i := rfl
@[simp] theorem State.raise_pc (s : State) (f : Fault) : (s.raise f).pc = s.pc := rfl
@[simp] theorem State.raise_stack (s : State) (f : Fault) : (s.raise f).stack = s.stack := rfl
@[simp] theorem State.raise_dt (s : State) (f : Fault) : (s.raise f).dt = s.dt := rfl
@[simp] theorem State.raise_st (s : State) (f : Fault) : (s.raise f).st = s.st := rfl
@[simp] theorem State.raise_mem (s : State) (f : Fault) : (s.raise f).mem = s.mem := rfl
@[simp] theorem State.raise_tickOrigin (s : State) (f : Fault) : (s.raise f).tickOrigin = s.tickOrigin := rfl
@[simp] theorem State.raise_ticksDone (s : State) (f : Fault) : (s.raise f).ticksDone = s.ticksDone := rfl
@[simp] theorem State.raise_fault (s : State) (f : Fault) : (s.raise f).fault = some f := rfl
@[simp] theorem State.raise_display (s : State) (f : Fault) : (s.raise f).display = s.display := rfl
@[simp] theorem State.raise_inputs (s : State) (f : Fault) : (s.raise f).inputs = s.inputs := rfl
@[simp] theorem State.raise_getV (s : State) (f : Fault) (r : Reg) : (s.raise f).getV r = s.getV r := rfl
@[simp] theorem State.raise_read1 (s : State) (f : Fault) (a : Nat) : (s.raise f).read1 a = s.read1 a := rfl

/-! Registers -/

/-- A register read after a write: the written value at its index, the old one elsewhere (R10). -/
theorem State.getV_setV (s : State) (x r : Reg) (b : Byte) :
    (s.setV x b).getV r = if r = x then b else s.getV r := by
  unfold State.getV State.setV
  by_cases h : r = x
  · subst h; simp
  · have h' : x.toNat ≠ r.toNat := fun e => h (BitVec.eq_of_toNat_eq e.symm)
    simp [h, Vector.getElem_set_ne _ _ h']

@[simp] theorem State.getV_setV_same (s : State) (x : Reg) (b : Byte) : (s.setV x b).getV x = b := by
  simp [State.getV_setV]

theorem State.getV_setV_ne (s : State) {x r : Reg} (b : Byte) (h : r ≠ x) : (s.setV x b).getV r = s.getV r := by
  simp [State.getV_setV, h]

/-- Two states that differ in no register have the same register file. -/
theorem State.v_ext {s t : State} (h : ∀ r, t.getV r = s.getV r) : t.v = s.v := by
  apply Vector.ext
  intro k hk
  have := h (BitVec.ofNat 4 k)
  have hk' : (BitVec.ofNat 4 k).toNat = k := by simp [BitVec.toNat_ofNat]; omega
  simpa [State.getV, hk'] using this

/-- Writing back what a register holds changes nothing. -/
@[simp] theorem State.setV_getV (s : State) (x : Reg) : s.setV x (s.getV x) = s := by
  unfold State.setV State.getV; simp

end Sys2Proof.Machine
end

