-- ==== Sys2Proof/Laws/Ops.lean ====
section
/-! SUPPORT. For each shared operation, what it does, said once. -/

namespace Sys2Proof.Machine

/-! The program counter -/

theorem State.advancePc_eq (s : State) : s.advancePc = s.setPc (s.pc + 2) := rfl

/-- A skip moves `pc` on by 2 where the condition holds, and does nothing else. -/
theorem State.skipIf_eq (s : State) (c : Bool) : s.skipIf c = s.setPc (if c then s.pc + 2 else s.pc) := by
  cases c <;> rfl

theorem State.retryPc_eq (s : State) : s.retryPc = s.setPc (s.pc - 2) := rfl

/-- `pc + 2` is modulo 65536 (R13). -/
theorem pc_add_two_toNat (w : Word) : (w + 2).toNat = (w.toNat + 2) % 65536 := by
  simp [BitVec.toNat_add]

/-! The call stack -/

/-- CALL's test holds exactly where the depth is the number of entries (R83). -/
theorem State.stackFull_iff (s : State) : s.stackFull = true ↔ s.cfg.stackDepth = .entries s.stack.length := by
  unfold State.stackFull
  cases h : s.cfg.stackDepth with
  | entries n =>
    simp only [beq_iff_eq, StackDepth.entries.injEq]
    exact eq_comm
  | unbounded => simp

/-- RET either raises StackUnderflow on an empty stack or pops the newest entry into `pc`. -/
theorem State.returnFromCall_cases (s : State) :
    (s.stack = [] ∧ s.returnFromCall = s.raise .stackUnderflow) ∨
    (∃ l w, s.stack = l ++ [w] ∧ s.returnFromCall = (s.setStack l).setPc w) := by
  rcases List.eq_nil_or_concat s.stack with h | ⟨l, w, h⟩
  · exact .inl ⟨h, by simp [State.returnFromCall, h]⟩
  · exact .inr ⟨l, w, by simpa using h, by simp [State.returnFromCall, h]⟩

/-- CALL either raises StackOverflow on a full stack or pushes `pc` and jumps. -/
theorem State.callTo_cases (s : State) (w : Word) :
    (s.cfg.stackDepth = .entries s.stack.length ∧ s.callTo w = s.raise .stackOverflow) ∨
    (s.cfg.stackDepth ≠ .entries s.stack.length ∧ s.callTo w = (s.setStack (s.stack ++ [s.pc])).setPc w) := by
  by_cases h : s.stackFull = true
  · exact .inl ⟨s.stackFull_iff.mp h, by simp [State.callTo, h]⟩
  · exact .inr ⟨fun e => h (s.stackFull_iff.mpr e), by simp [State.callTo, h, State.push]⟩

/-! Flags -/

theorem flagByte_zero_or_one (c : Bool) : flagByte c = 0 ∨ flagByte c = 1 := by cases c <;> simp [flagByte]

theorem State.resultThenFlag_eq (s : State) (x : Reg) (r f : Byte) :
    s.resultThenFlag x r f = (s.setV x r).setV vf f := rfl

/-- Registers after the result and then the flag: the flag wins at `VF` (R91). -/
theorem State.getV_resultThenFlag (s : State) (x q : Reg) (r f : Byte) :
    (s.resultThenFlag x r f).getV q = if q = vf then f else if q = x then r else s.getV q := by
  simp only [State.resultThenFlag, State.getV_setV]

/-- Registers after the flag and then the result: the result wins at `VF` (U3). -/
theorem State.getV_flagThenResult (s : State) (x q : Reg) (r f : Byte) :
    (s.flagThenResult x r f).getV q = if q = x then r else if q = vf then f else s.getV q := by
  simp only [State.flagThenResult, State.getV_setV]

/-- SUB and SUBN write registers only. -/
theorem State.writeDifference_cases (s : State) (x : Reg) (r f : Byte) :
    (s.cfg.vfOrder = .flagLast ∧ s.writeDifference x r f = s.resultThenFlag x r f) ∨
    (s.cfg.vfOrder = .asListed ∧ s.writeDifference x r f = s.flagThenResult x r f) := by
  unfold State.writeDifference
  cases h : s.cfg.vfOrder <;> simp

/-- SHR and SHL write registers only; the order shows in the operand only at `VF`. -/
theorem State.writeShift_cases (s : State) (x : Reg) (g f : Byte → Byte) :
    (s.cfg.vfOrder = .flagLast ∧ s.writeShift x g f = s.resultThenFlag x (g (s.getV x)) (f (s.getV x))) ∨
    (s.cfg.vfOrder = .asListed ∧
      s.writeShift x g f = s.flagThenResult x (g (if x = vf then f (s.getV x) else s.getV x)) (f (s.getV x))) := by
  unfold State.writeShift
  cases h : s.cfg.vfOrder <;> simp [State.getV_setV]

/-! Moving several bytes -/

theorem State.loadRegs_eq (s : State) (a n : Nat) : ∃ v, s.loadRegs a n = { s with v := v } := by
  induction n with
  | zero => exact ⟨s.v, rfl⟩
  | succ n ih => obtain ⟨v, hv⟩ := ih; exact ⟨_, by rw [State.loadRegs, hv]; rfl⟩

/-- The registers after the first `n` transfers of LD Vx,[I] (R110). -/
theorem State.getV_loadRegs (s : State) (a n : Nat) (hn : n ≤ 16) (r : Reg) :
    (s.loadRegs a n).getV r = if r.toNat < n then s.read1 (a + r.toNat) else s.getV r := by
  induction n with
  | zero => simp [State.loadRegs]
  | succ n ih =>
    have hk : (BitVec.ofNat 4 n).toNat = n := by simp [BitVec.toNat_ofNat]; omega
    rw [State.loadRegs, State.getV_setV, ih (by omega)]
    by_cases h : r = BitVec.ofNat 4 n
    · subst h; simp [hk]
    · have hne : r.toNat ≠ n := fun e => h (BitVec.eq_of_toNat_eq (by rw [hk, e]))
      by_cases hlt : r.toNat < n
      · simp [h, hlt, Nat.lt_succ_of_lt hlt]
      · have : ¬ r.toNat < n + 1 := by omega
        simp [h, hlt, this]

/-- The bytes LD [I],Vx stores (R109). -/
theorem State.regBytes_length (s : State) (x : Reg) : (s.regBytes x).length = x.toNat + 1 := by
  simp [State.regBytes]

theorem State.regBytes_getElem (s : State) (x : Reg) (k : Nat) (hk : k < (s.regBytes x).length) :
    (s.regBytes x)[k] = (s.getV (BitVec.ofNat 4 k)).toNat := by
  simp [State.regBytes]

/-! Bulk writes -/

/-- A read after a bulk write, outside the bytes written (R36). -/
theorem memRead1_bulkWrite_outside (m : Memory) (a b : Nat) (bytes : List Nat)
    (h : ∀ k, k < bytes.length → ea b ≠ ea (a + k)) : memRead1 (bulkWrite m a bytes) b = memRead1 m b := by
  induction bytes generalizing m a with
  | nil => rfl
  | cons v rest ih =>
    rw [bulkWrite, ih, memRead1_memWrite1, if_neg (by simpa using h 0 (by simp))]
    intro k hk
    have := h (k + 1) (by simpa using hk)
    rwa [Nat.add_assoc, Nat.add_comm 1 k]

/-- A bulk write is a bulk write of its first part and then of the rest (R36). -/
theorem bulkWrite_append (m : Memory) (a : Nat) (l r : List Nat) :
    bulkWrite m a (l ++ r) = bulkWrite (bulkWrite m a l) (a + l.length) r := by
  induction l generalizing m a with
  | nil => rfl
  | cons v rest ih => simp [bulkWrite, ih, Nat.add_assoc, Nat.add_comm 1]

/-! The display -/

theorem Display.draw_calls (d : Display) (c : Bool) (ps : List PixelReq) :
    (d.draw c ps).2.calls = d.calls ++ ps.map PixelReq.call := by
  induction ps generalizing d c with
  | nil => simp [Display.draw]
  | cons p rest ih => simp [Display.draw, ih, Display.setPixel]

/-- Two requests' toggles commute or cancel; toggling keeps the size of the frame buffer. -/
theorem Display.toggled_length (d : Display) (x y : Nat) : (d.toggled x y).length = d.fb.length := by
  simp [Display.toggled]

theorem Display.toggled_rows (d : Display) (x y w : Nat) (h : ∀ row ∈ d.fb, row.length = w) :
    ∀ row ∈ d.toggled x y, row.length = w := by
  intro row hr
  obtain ⟨k, hk, rfl⟩ := List.getElem_of_mem hr
  simp only [Display.toggled, List.length_modify] at hk
  simp only [Display.toggled, List.getElem_modify]
  split
  · simp [h _ (List.getElem_mem hk)]
  · exact h _ (List.getElem_mem hk)

/-- A sequence of requests keeps the size of the frame buffer. -/
theorem Display.draw_shape (d : Display) (c : Bool) (ps : List PixelReq) (w : Nat)
    (h : ∀ row ∈ d.fb, row.length = w) :
    (d.draw c ps).2.fb.length = d.fb.length ∧ ∀ row ∈ (d.draw c ps).2.fb, row.length = w := by
  induction ps generalizing d c with
  | nil => exact ⟨rfl, h⟩
  | cons p rest ih =>
    have h1 : ∀ row ∈ (d.setPixel p).2.fb, row.length = w := by
      intro row hr
      simp only [Display.setPixel] at hr
      split at hr
      · exact Display.toggled_rows d _ _ _ h row hr
      · exact h row hr
    have h2 : (d.setPixel p).2.fb.length = d.fb.length := by
      simp only [Display.setPixel]; split
      · exact Display.toggled_length ..
      · rfl
    obtain ⟨ha, hb⟩ := ih (d.setPixel p).2 (c || (d.setPixel p).1) h1
    exact ⟨ha.trans h2, hb⟩

theorem Display.clear_shape (d : Display) (w : Nat) (h : ∀ row ∈ d.fb, row.length = w) :
    d.clear.fb.length = d.fb.length ∧ ∀ row ∈ d.clear.fb, row.length = w := by
  refine ⟨by simp [Display.clear], fun row hr => ?_⟩
  simp only [Display.clear, List.mem_map] at hr
  obtain ⟨row', hr', rfl⟩ := hr
  simp [h row' hr']

/-! The draws -/

theorem State.sampledKeys_eq (s : State) : s.sampledKeys = s.setInputs s.inputs.afterKeys := rfl

theorem State.drewRandom_eq (s : State) : s.drewRandom = s.setInputs s.inputs.afterRandom := rfl

/-- The search for the least key: below its answer no key of the range is down, and the answer is down if it is in
the range (R121). -/
theorem leastKeyFrom_spec (keys : Keys) (k0 n : Nat) :
    k0 ≤ leastKeyFrom keys k0 n ∧ leastKeyFrom keys k0 n ≤ k0 + n ∧
    (∀ j, k0 ≤ j → j < leastKeyFrom keys k0 n → keys.getLsbD j = false) ∧
    (leastKeyFrom keys k0 n < k0 + n → keys.getLsbD (leastKeyFrom keys k0 n) = true) := by
  induction n generalizing k0 with
  | zero => exact ⟨Nat.le_refl _, Nat.le_refl _, fun j h1 h2 => by simp only [leastKeyFrom] at h2; omega,
      fun h => by simp [leastKeyFrom] at h⟩
  | succ n ih =>
    unfold leastKeyFrom
    split
    · rename_i h
      exact ⟨Nat.le_refl _, by omega, fun j h1 h2 => by omega, fun _ => h⟩
    · rename_i h
      obtain ⟨h1, h2, h3, h4⟩ := ih (k0 + 1)
      refine ⟨by omega, by omega, fun j hj1 hj2 => ?_, fun hlt => h4 (by omega)⟩
      by_cases hj : j = k0
      · subst hj; simpa using h
      · exact h3 j (by omega) hj2

end Sys2Proof.Machine
end

