-- ==== Sys2Proof/Laws/HostOps.lean ====
section
/-! SUPPORT. What each of the host's operations does, said once. -/

namespace Sys2Proof.Machine

/-! Construction, field by field -/

@[simp] theorem construct_cfg (c : Config) (d : Display) (inp : Inputs) : (construct c d inp).cfg = c := rfl
@[simp] theorem construct_v (c : Config) (d : Display) (inp : Inputs) : (construct c d inp).v = Vector.replicate 16 c.resetV := rfl
@[simp] theorem construct_i (c : Config) (d : Display) (inp : Inputs) : (construct c d inp).i = c.resetI := rfl
@[simp] theorem construct_pc (c : Config) (d : Display) (inp : Inputs) : (construct c d inp).pc = BitVec.ofNat 16 programOrigin := rfl
@[simp] theorem construct_stack (c : Config) (d : Display) (inp : Inputs) : (construct c d inp).stack = [] := rfl
@[simp] theorem construct_dt (c : Config) (d : Display) (inp : Inputs) : (construct c d inp).dt = c.resetDT := rfl
@[simp] theorem construct_st (c : Config) (d : Display) (inp : Inputs) : (construct c d inp).st = c.resetST := rfl
@[simp] theorem construct_tickOrigin (c : Config) (d : Display) (inp : Inputs) : (construct c d inp).tickOrigin = none := rfl
@[simp] theorem construct_ticksDone (c : Config) (d : Display) (inp : Inputs) : (construct c d inp).ticksDone = 0 := rfl
@[simp] theorem construct_fault (c : Config) (d : Display) (inp : Inputs) : (construct c d inp).fault = none := rfl
@[simp] theorem construct_display (c : Config) (d : Display) (inp : Inputs) : (construct c d inp).display = d := rfl
@[simp] theorem construct_inputs (c : Config) (d : Display) (inp : Inputs) : (construct c d inp).inputs = inp := rfl

/-- The memory of a constructed core is canonical. -/
theorem construct_mem_wf (c : Config) (d : Display) (inp : Inputs) : Memory.wf (construct c d inp).mem :=
  bulkWrite_wf (bulkWrite_wf nil_wf _ _) _ _

/-! `load` -/

/-- `load` replaces the memory and nothing else (R164). -/
theorem load_eq (bytes : List Byte) (s : State) :
    load bytes s = s.setMem (bulkWrite s.mem programOrigin (bytes.map BitVec.toNat)) := rfl

/-! `tick` -/

theorem countDown_toNat (b : Byte) (k : Nat) : (countDown b k).toNat = b.toNat - k := by
  have := b.isLt
  simp [countDown]; omega

/-- Counting down twice is counting down by the sum. -/
theorem countDown_countDown (b : Byte) (j k : Nat) : countDown (countDown b j) k = countDown b (j + k) :=
  BitVec.eq_of_toNat_eq (by rw [countDown_toNat, countDown_toNat, countDown_toNat]; omega)

/-- `tick` does one of three things: it sets the origin, it changes nothing, or it applies the periods that are new
since the last call (R142). -/
theorem tick_cases (t : Nat) (s : State) :
    (s.tickOrigin = none ∧ tick t s = s.setTick (some t) 0) ∨
    (∃ o, s.tickOrigin = some o ∧ (t < o ∨ periods s.cfg o t ≤ s.ticksDone) ∧ tick t s = s) ∨
    (∃ o, s.tickOrigin = some o ∧ o ≤ t ∧ s.ticksDone < periods s.cfg o t ∧
      tick t s = (s.countDownBoth (periods s.cfg o t - s.ticksDone)).setTick (some o) (periods s.cfg o t)) := by
  cases h : s.tickOrigin with
  | none => exact .inl ⟨rfl, by simp [tick, h]⟩
  | some o =>
    by_cases h1 : t < o
    · exact .inr (.inl ⟨o, rfl, .inl h1, by simp [tick, h, h1]⟩)
    · by_cases h2 : periods s.cfg o t ≤ s.ticksDone
      · exact .inr (.inl ⟨o, rfl, .inr h2, by simp [tick, h, h2]⟩)
      · exact .inr (.inr ⟨o, rfl, by omega, by omega, by simp only [tick, h]; rw [if_neg h1, if_neg h2]⟩)

/-- Whole periods only grow with the timestamp. -/
theorem periods_mono (c : Config) (o : Nat) {t1 t2 : Nat} (h : t1 ≤ t2) : periods c o t1 ≤ periods c o t2 :=
  Nat.div_le_div_right (Nat.mul_le_mul_right _ (by omega))

end Sys2Proof.Machine
end

