-- ==== Sys2Proof/Laws/PerInstr.lean ====
section
/-! SUPPORT. Per instruction: its word has the fixed bits of its row of spec/opcode_table.json. -/

namespace Sys2Proof

/-- The `mask` column of spec/opcode_table.json. -/
def rowMask : Mnemonic → Word
  | .sys => 0xF000
  | .cls => 0xFFFF
  | .ret => 0xFFFF
  | .jp => 0xF000
  | .call => 0xF000
  | .seByte => 0xF000
  | .sneByte => 0xF000
  | .seReg => 0xF00F
  | .sneReg => 0xF00F
  | .ldByte => 0xF000
  | .addByte => 0xF000
  | .ldReg => 0xF00F
  | .orReg => 0xF00F
  | .andReg => 0xF00F
  | .xorReg => 0xF00F
  | .addReg => 0xF00F
  | .subReg => 0xF00F
  | .shr => 0xF00F
  | .subnReg => 0xF00F
  | .shl => 0xF00F
  | .ldI => 0xF000
  | .jpV0 => 0xF000
  | .rnd => 0xF000
  | .drw => 0xF000
  | .skp => 0xF0FF
  | .sknp => 0xF0FF
  | .ldVxDT => 0xF0FF
  | .ldVxK => 0xF0FF
  | .ldDTVx => 0xF0FF
  | .ldSTVx => 0xF0FF
  | .addIVx => 0xF0FF
  | .ldFVx => 0xF0FF
  | .ldBVx => 0xF0FF
  | .ldMemVx => 0xF0FF
  | .ldVxMem => 0xF0FF

/-- The `match` column of spec/opcode_table.json. -/
def rowMatch : Mnemonic → Word
  | .sys => 0x0000
  | .cls => 0x00E0
  | .ret => 0x00EE
  | .jp => 0x1000
  | .call => 0x2000
  | .seByte => 0x3000
  | .sneByte => 0x4000
  | .seReg => 0x5000
  | .sneReg => 0x9000
  | .ldByte => 0x6000
  | .addByte => 0x7000
  | .ldReg => 0x8000
  | .orReg => 0x8001
  | .andReg => 0x8002
  | .xorReg => 0x8003
  | .addReg => 0x8004
  | .subReg => 0x8005
  | .shr => 0x8006
  | .subnReg => 0x8007
  | .shl => 0x800E
  | .ldI => 0xA000
  | .jpV0 => 0xB000
  | .rnd => 0xC000
  | .drw => 0xD000
  | .skp => 0xE09E
  | .sknp => 0xE0A1
  | .ldVxDT => 0xF007
  | .ldVxK => 0xF00A
  | .ldDTVx => 0xF015
  | .ldSTVx => 0xF018
  | .addIVx => 0xF01E
  | .ldFVx => 0xF029
  | .ldBVx => 0xF033
  | .ldMemVx => 0xF055
  | .ldVxMem => 0xF065

/-! The three masks, by the fields they keep -/

theorem append_bit {m n : Nat} (x : BitVec m) (y : BitVec n) (k : Nat) :
    (x ++ y).getLsbD k = if k < n then y.getLsbD k else x.getLsbD (k - n) := by
  rw [BitVec.getLsbD_append]

theorem and_mask_op (w : Word) : w &&& 0xF000 = (opField w ++ 0#12 : Word) := by
  refine BitVec.eq_of_getLsbD_eq (fun k hk => ?_)
  have e : (opField w ++ 0#12 : Word).getLsbD k = _ := append_bit (opField w) 0#12 k
  rw [e]
  clear e
  simp only [BitVec.getLsbD_and, opField, BitVec.getLsbD_extractLsb']
  interval_cases k <;> simp

theorem and_mask_op_n (w : Word) : w &&& 0xF00F = (opField w ++ 0#4 ++ 0#4 ++ nField w : Word) := by
  refine BitVec.eq_of_getLsbD_eq (fun k hk => ?_)
  have e : (opField w ++ 0#4 ++ 0#4 ++ nField w : Word).getLsbD k = _ :=
    append_bit (opField w ++ 0#4 ++ 0#4) (nField w) k
  rw [e, append_bit, append_bit]
  clear e
  simp only [BitVec.getLsbD_and, opField, nField, BitVec.getLsbD_extractLsb']
  interval_cases k <;> simp

theorem and_mask_op_kk (w : Word) : w &&& 0xF0FF = (opField w ++ 0#4 ++ kkField w : Word) := by
  refine BitVec.eq_of_getLsbD_eq (fun k hk => ?_)
  have e : (opField w ++ 0#4 ++ kkField w : Word).getLsbD k = _ := append_bit (opField w ++ 0#4) (kkField w) k
  rw [e, append_bit]
  clear e
  simp only [BitVec.getLsbD_and, opField, kkField, BitVec.getLsbD_extractLsb']
  interval_cases k <;> simp

end Sys2Proof

namespace Sys2Proof.Laws.TableRow

/-- The instruction's word agrees with its table row on every bit the row fixes. -/
def Statement (i : Instr) : Prop := encode i &&& rowMask i.mnemonic = rowMatch i.mnemonic

theorem sys (nnn : Addr) : Statement (.sys nnn) :=
  (and_mask_op _).trans (by simp [encode, Instr.mnemonic, rowMatch])

theorem cls : Statement .cls :=
  by unfold Statement; decide

theorem ret : Statement .ret :=
  by unfold Statement; decide

theorem jp (nnn : Addr) : Statement (.jp nnn) :=
  (and_mask_op _).trans (by simp [encode, Instr.mnemonic, rowMatch])

theorem call (nnn : Addr) : Statement (.call nnn) :=
  (and_mask_op _).trans (by simp [encode, Instr.mnemonic, rowMatch])

theorem seByte (x : Reg) (kk : Byte) : Statement (.seByte x kk) :=
  (and_mask_op _).trans (by simp [encode, Instr.mnemonic, rowMatch])

theorem sneByte (x : Reg) (kk : Byte) : Statement (.sneByte x kk) :=
  (and_mask_op _).trans (by simp [encode, Instr.mnemonic, rowMatch])

theorem seReg (x y : Reg) : Statement (.seReg x y) :=
  (and_mask_op_n _).trans (by simp [encode, Instr.mnemonic, rowMatch])

theorem sneReg (x y : Reg) : Statement (.sneReg x y) :=
  (and_mask_op_n _).trans (by simp [encode, Instr.mnemonic, rowMatch])

theorem ldByte (x : Reg) (kk : Byte) : Statement (.ldByte x kk) :=
  (and_mask_op _).trans (by simp [encode, Instr.mnemonic, rowMatch])

theorem addByte (x : Reg) (kk : Byte) : Statement (.addByte x kk) :=
  (and_mask_op _).trans (by simp [encode, Instr.mnemonic, rowMatch])

theorem ldReg (x y : Reg) : Statement (.ldReg x y) :=
  (and_mask_op_n _).trans (by simp [encode, Instr.mnemonic, rowMatch])

theorem orReg (x y : Reg) : Statement (.orReg x y) :=
  (and_mask_op_n _).trans (by simp [encode, Instr.mnemonic, rowMatch])

theorem andReg (x y : Reg) : Statement (.andReg x y) :=
  (and_mask_op_n _).trans (by simp [encode, Instr.mnemonic, rowMatch])

theorem xorReg (x y : Reg) : Statement (.xorReg x y) :=
  (and_mask_op_n _).trans (by simp [encode, Instr.mnemonic, rowMatch])

theorem addReg (x y : Reg) : Statement (.addReg x y) :=
  (and_mask_op_n _).trans (by simp [encode, Instr.mnemonic, rowMatch])

theorem subReg (x y : Reg) : Statement (.subReg x y) :=
  (and_mask_op_n _).trans (by simp [encode, Instr.mnemonic, rowMatch])

theorem shr (x y : Reg) : Statement (.shr x y) :=
  (and_mask_op_n _).trans (by simp [encode, Instr.mnemonic, rowMatch])

theorem subnReg (x y : Reg) : Statement (.subnReg x y) :=
  (and_mask_op_n _).trans (by simp [encode, Instr.mnemonic, rowMatch])

theorem shl (x y : Reg) : Statement (.shl x y) :=
  (and_mask_op_n _).trans (by simp [encode, Instr.mnemonic, rowMatch])

theorem ldI (nnn : Addr) : Statement (.ldI nnn) :=
  (and_mask_op _).trans (by simp [encode, Instr.mnemonic, rowMatch])

theorem jpV0 (nnn : Addr) : Statement (.jpV0 nnn) :=
  (and_mask_op _).trans (by simp [encode, Instr.mnemonic, rowMatch])

theorem rnd (x : Reg) (kk : Byte) : Statement (.rnd x kk) :=
  (and_mask_op _).trans (by simp [encode, Instr.mnemonic, rowMatch])

theorem drw (x y : Reg) (n : Nibble) : Statement (.drw x y n) :=
  (and_mask_op _).trans (by simp [encode, Instr.mnemonic, rowMatch])

theorem skp (x : Reg) : Statement (.skp x) :=
  (and_mask_op_kk _).trans (by simp [encode, Instr.mnemonic, rowMatch])

theorem sknp (x : Reg) : Statement (.sknp x) :=
  (and_mask_op_kk _).trans (by simp [encode, Instr.mnemonic, rowMatch])

theorem ldVxDT (x : Reg) : Statement (.ldVxDT x) :=
  (and_mask_op_kk _).trans (by simp [encode, Instr.mnemonic, rowMatch])

theorem ldVxK (x : Reg) : Statement (.ldVxK x) :=
  (and_mask_op_kk _).trans (by simp [encode, Instr.mnemonic, rowMatch])

theorem ldDTVx (x : Reg) : Statement (.ldDTVx x) :=
  (and_mask_op_kk _).trans (by simp [encode, Instr.mnemonic, rowMatch])

theorem ldSTVx (x : Reg) : Statement (.ldSTVx x) :=
  (and_mask_op_kk _).trans (by simp [encode, Instr.mnemonic, rowMatch])

theorem addIVx (x : Reg) : Statement (.addIVx x) :=
  (and_mask_op_kk _).trans (by simp [encode, Instr.mnemonic, rowMatch])

theorem ldFVx (x : Reg) : Statement (.ldFVx x) :=
  (and_mask_op_kk _).trans (by simp [encode, Instr.mnemonic, rowMatch])

theorem ldBVx (x : Reg) : Statement (.ldBVx x) :=
  (and_mask_op_kk _).trans (by simp [encode, Instr.mnemonic, rowMatch])

theorem ldMemVx (x : Reg) : Statement (.ldMemVx x) :=
  (and_mask_op_kk _).trans (by simp [encode, Instr.mnemonic, rowMatch])

theorem ldVxMem (x : Reg) : Statement (.ldVxMem x) :=
  (and_mask_op_kk _).trans (by simp [encode, Instr.mnemonic, rowMatch])

end Sys2Proof.Laws.TableRow
end

