-- ==== Sys2Proof/Tests/Slice0.lean ====
section
/-! SUPPORT. The model's own tests: the ill-formed terms, one word per instruction written out from its encoding, one
or two steps per instruction with the expected values of 95_test_vectors.md or of the rule's own example, and for
each statement with hypotheses a witness that meets them. -/

namespace Sys2Proof.Tests

open Sys2Proof Sys2Proof.Machine

/-! Well-formedness: a term each check refuses -/

theorem test_wf_sys_not_cls : (Instr.sys 0x0E0).wf = false := by decide
theorem test_wf_sys_not_ret : (Instr.sys 0x0EE).wf = false := by decide
theorem test_wf_display_width : ({ Config.default with displayW := 0 } : Config).wf = false := by decide
theorem test_wf_display_height : ({ Config.default with displayH := 0 } : Config).wf = false := by decide
theorem test_wf_timer_hz : ({ Config.default with timerHz := 0 } : Config).wf = false := by decide
theorem test_wf_ts_per_sec : ({ Config.default with tsPerSec := 0 } : Config).wf = false := by decide
theorem test_wf_font_length (l : List Byte) (h : memSize < l.length) :
    ({ Config.default with fontTable := l } : Config).wf = false := by
  simp [Config.wf, Nat.not_le.mpr h]
theorem test_wf_default : Config.default.wf = true := by decide

/-! Decoding: words of 30_encoding.md section 4, with x = 1010, y = 1011, kk = 00010010, nnn = 101010111100 -/

theorem test_decode_sys : decodeWord 0b0000000111100000 = .instr (.sys 0x1E0) := by decide
theorem test_decode_sys_zero : decodeWord 0b0000000000000000 = .instr (.sys 0) := by decide
theorem test_decode_cls : decodeWord 0b0000000011100000 = .instr .cls := by decide
theorem test_decode_ret : decodeWord 0b0000000011101110 = .instr .ret := by decide
theorem test_decode_jp : decodeWord 0b0001101010111100 = .instr (.jp 0xABC) := by decide
theorem test_decode_call : decodeWord 0b0010101010111100 = .instr (.call 0xABC) := by decide
theorem test_decode_seByte : decodeWord 0b0011101000010010 = .instr (.seByte 0xA 0x12) := by decide
theorem test_decode_sneByte : decodeWord 0b0100101000010010 = .instr (.sneByte 0xA 0x12) := by decide
theorem test_decode_seReg : decodeWord 0b0101101010110000 = .instr (.seReg 0xA 0xB) := by decide
theorem test_decode_sneReg : decodeWord 0b1001101010110000 = .instr (.sneReg 0xA 0xB) := by decide
theorem test_decode_ldByte : decodeWord 0b0110101000010010 = .instr (.ldByte 0xA 0x12) := by decide
theorem test_decode_addByte : decodeWord 0b0111101000010010 = .instr (.addByte 0xA 0x12) := by decide
theorem test_decode_ldReg : decodeWord 0b1000101010110000 = .instr (.ldReg 0xA 0xB) := by decide
theorem test_decode_orReg : decodeWord 0b1000101010110001 = .instr (.orReg 0xA 0xB) := by decide
theorem test_decode_andReg : decodeWord 0b1000101010110010 = .instr (.andReg 0xA 0xB) := by decide
theorem test_decode_xorReg : decodeWord 0b1000101010110011 = .instr (.xorReg 0xA 0xB) := by decide
theorem test_decode_addReg : decodeWord 0b1000101010110100 = .instr (.addReg 0xA 0xB) := by decide
theorem test_decode_subReg : decodeWord 0b1000101010110101 = .instr (.subReg 0xA 0xB) := by decide
theorem test_decode_shr : decodeWord 0b1000101010110110 = .instr (.shr 0xA 0xB) := by decide
theorem test_decode_subnReg : decodeWord 0b1000101010110111 = .instr (.subnReg 0xA 0xB) := by decide
theorem test_decode_shl : decodeWord 0b1000101010111110 = .instr (.shl 0xA 0xB) := by decide
theorem test_decode_ldI : decodeWord 0b1010101010111100 = .instr (.ldI 0xABC) := by decide
theorem test_decode_jpV0 : decodeWord 0b1011101010111100 = .instr (.jpV0 0xABC) := by decide
theorem test_decode_rnd : decodeWord 0b1100101000010010 = .instr (.rnd 0xA 0x12) := by decide
theorem test_decode_drw : decodeWord 0b1101101010110101 = .instr (.drw 0xA 0xB 5) := by decide
theorem test_decode_skp : decodeWord 0b1110101010011110 = .instr (.skp 0xA) := by decide
theorem test_decode_sknp : decodeWord 0b1110101010100001 = .instr (.sknp 0xA) := by decide
theorem test_decode_ldVxDT : decodeWord 0b1111101000000111 = .instr (.ldVxDT 0xA) := by decide
theorem test_decode_ldVxK : decodeWord 0b1111101000001010 = .instr (.ldVxK 0xA) := by decide
theorem test_decode_ldDTVx : decodeWord 0b1111101000010101 = .instr (.ldDTVx 0xA) := by decide
theorem test_decode_ldSTVx : decodeWord 0b1111101000011000 = .instr (.ldSTVx 0xA) := by decide
theorem test_decode_addIVx : decodeWord 0b1111101000011110 = .instr (.addIVx 0xA) := by decide
theorem test_decode_ldFVx : decodeWord 0b1111101000101001 = .instr (.ldFVx 0xA) := by decide
theorem test_decode_ldBVx : decodeWord 0b1111101000110011 = .instr (.ldBVx 0xA) := by decide
theorem test_decode_ldMemVx : decodeWord 0b1111101001010101 = .instr (.ldMemVx 0xA) := by decide
theorem test_decode_ldVxMem : decodeWord 0b1111101001100101 = .instr (.ldVxMem 0xA) := by decide
theorem test_decode_bad_class5 : decodeWord 0b0101101010110001 = .unrecognised 0x5AB1 := by decide
theorem test_decode_bad_class8 : decodeWord 0b1000101010111000 = .unrecognised 0x8AB8 := by decide
theorem test_decode_bad_class9 : decodeWord 0b1001101010110101 = .unrecognised 0x9AB5 := by decide
theorem test_decode_bad_classE : decodeWord 0b1110101010011111 = .unrecognised 0xEA9F := by decide
theorem test_decode_bad_classF : decodeWord 0b1111000000000000 = .unrecognised 0xF000 := by decide

/-- Two bytes make the word, the first the more significant (R50, R41), and what follows is left over. -/
theorem test_decode_bytes : decodeBytes [0x60, 0x05, 0x12] = .word (.instr (.ldByte 0 5)) [0x12] := by decide
theorem test_decode_truncated : decodeBytes [0x60] = .truncated := by decide
theorem test_decode_table_word : decodeTableWord 16 0x80E6 = some (.shr 0 0xE) := by decide

/-! One step -/

/-- Reset with a change made and a word stored at `pc`. -/
def at200 (w : Word) (change : State → State) : State := (change State.reset).placeWord w

/-- The state after one step, the same state where there is none. -/
def after (s : State) : State :=
  match step s with
  | .next t => t
  | .fault _ => s
  | .refused _ => s

/-- Registers V1 and V2 and VF set. -/
def regs12f (a b f : Byte) (s : State) : State := ((s.setV 1 a).setV 2 b).setV vf f

/-- A key sample and a random byte injected. -/
def injected (k : Keys) (r : Byte) (s : State) : State := s.setInputs ⟨[k], 0, [r], 0⟩

/-- One byte of memory set. -/
def poke (a v : Nat) (s : State) : State := s.setMem (memWrite1 s.mem a v)

theorem test_sys_only_advances :
    (after (at200 0x0123 id)).pc = 0x202 := by decide
theorem test_cls_one_call :
    (after (at200 0x00E0 id)).display.calls = [.clear] := by decide
theorem test_cls_clears_pixel :
    (after (at200 0x00E0 (fun s => s.setDisplay (s.display.setPixel ⟨3, 2, true⟩).2))).display.pixel 3 2 = false := by decide
theorem test_ret_pops_newest :
    (after (at200 0x00EE (fun s => s.setStack [0x206, 0x30A]))).pc = 0x30A := by decide
theorem test_ret_underflows :
    (after (at200 0x00EE id)).fault = some .stackUnderflow := by decide
theorem test_jp_sets_pc :
    (after (at200 0x12F0 id)).pc = 0x2F0 := by decide
theorem test_call_pushes_next :
    (after (at200 0x2300 id)).stack = [0x202] ∧
    (after (at200 0x2300 id)).pc = 0x300 := by decide
theorem test_call_overflows :
    (after (at200 0x2300 (fun s => s.setStack (List.replicate 16 0x202)))).fault = some .stackOverflow ∧
    (after (at200 0x2300 (fun s => s.setStack (List.replicate 16 0x202)))).pc = 0x202 := by decide
theorem test_seByte_taken :
    (after (at200 0x332A (fun s => s.setV 3 0x2A))).pc = 0x204 := by decide
theorem test_seByte_not_taken :
    (after (at200 0x332A (fun s => s.setV 3 0x2B))).pc = 0x202 := by decide
theorem test_sneByte_not_taken :
    (after (at200 0x432A (fun s => s.setV 3 0x2A))).pc = 0x202 := by decide
theorem test_sneByte_taken :
    (after (at200 0x432A (fun s => s.setV 3 0x2B))).pc = 0x204 := by decide
theorem test_seReg_same_register :
    (after (at200 0x5110 id)).pc = 0x204 := by decide
theorem test_seReg_not_taken :
    (after (at200 0x5120 (regs12f 7 8 0))).pc = 0x202 := by decide
theorem test_sneReg_same_register :
    (after (at200 0x9110 id)).pc = 0x202 := by decide
theorem test_sneReg_taken :
    (after (at200 0x9120 (regs12f 7 8 0))).pc = 0x204 := by decide
theorem test_ldByte_source_example :
    (after (at200 0x6005 id)).getV 0 = 5 ∧
    (after (at200 0x6005 id)).pc = 0x202 := by decide
theorem test_addByte_wraps :
    (after (at200 0x7101 (regs12f 0xFF 0 0))).getV 1 = 0 := by decide
theorem test_addByte_no_flag :
    (after (at200 0x7101 (regs12f 0xFF 0 1))).getV vf = 1 := by decide
theorem test_ldReg_copies :
    (after (at200 0x8120 (regs12f 0x11 0x99 1))).getV 1 = 0x99 := by decide
theorem test_orReg :
    (after (at200 0x8121 (regs12f 0xF0 0x3C 1))).getV 1 = 0xFC := by decide
theorem test_orReg_vf_destination :
    (after (at200 0x8F11 (regs12f 0x80 0 1))).getV vf = 0x81 := by decide
theorem test_andReg :
    (after (at200 0x8122 (regs12f 0xF0 0x3C 1))).getV 1 = 0x30 ∧
    (after (at200 0x8122 (regs12f 0xF0 0x3C 1))).getV vf = 1 := by decide
theorem test_xorReg :
    (after (at200 0x8123 (regs12f 0xF0 0x3C 0))).getV 1 = 0xCC := by decide
theorem test_addReg_eight_bits :
    (after (at200 0x8124 (regs12f 0x0F 0x01 0))).getV 1 = 0x10 ∧
    (after (at200 0x8124 (regs12f 0x0F 0x01 1))).getV vf = 0 := by decide
theorem test_addReg_vf_source :
    (after (at200 0x81F4 (regs12f 0xFF 0 1))).getV 1 = 0 ∧
    (after (at200 0x81F4 (regs12f 0xFF 0 1))).getV vf = 1 := by decide
theorem test_subReg_equal_no_borrow :
    (after (at200 0x8125 (regs12f 7 7 0))).getV vf = 1 ∧
    (after (at200 0x8125 (regs12f 7 7 0))).getV 1 = 0 := by decide
theorem test_subReg_vf_destination :
    (after (at200 0x8F15 (regs12f 3 0 5))).getV vf = 1 := by decide
theorem test_subReg_as_listed :
    (after (at200 0x8F15 (fun s => { (regs12f 3 0 5 s) with cfg := { Config.default with vfOrder := .asListed } }))).getV vf = 2 := by decide
theorem test_shr_ignores_y :
    (after (at200 0x81F6 (regs12f 0x03 0x55 0))).getV 1 = 1 ∧
    (after (at200 0x81F6 (regs12f 0x03 0x55 0))).getV vf = 1 := by decide
theorem test_shr_even :
    (after (at200 0x8126 (regs12f 0x02 0x55 1))).getV 1 = 1 ∧
    (after (at200 0x8126 (regs12f 0x02 0x55 1))).getV vf = 0 := by decide
theorem test_subnReg_borrows :
    (after (at200 0x8127 (regs12f 0x05 0x03 1))).getV 1 = 0xFE ∧
    (after (at200 0x8127 (regs12f 0x05 0x03 1))).getV vf = 0 := by decide
theorem test_shl_high_bit :
    (after (at200 0x812E (regs12f 0x81 0x55 0))).getV 1 = 2 ∧
    (after (at200 0x812E (regs12f 0x81 0x55 0))).getV vf = 1 := by decide
theorem test_shl_not_low_bit :
    (after (at200 0x812E (regs12f 0x01 0x55 1))).getV vf = 0 := by decide
theorem test_ldI_clears_upper :
    (after (at200 0xAFFF (fun s => s.setI 0xFFFF))).i = 0x0FFF := by decide
theorem test_jpV0_unreduced :
    (after (at200 0xBFFF (fun s => s.setV 0 0xFF))).pc = 0x10FE := by decide
theorem test_rnd_masks :
    (after (at200 0xC10F (injected 0 0xA7))).getV 1 = 0x07 := by decide
theorem test_rnd_high_mask :
    (after (at200 0xC1F0 (injected 0 0x0F))).getV 1 = 0 := by decide
theorem test_drw_at_corner :
    (after (at200 0xD121 (fun s => ((regs12f 62 30 9 s)).setI 0))).display.pixel 1 30 = true ∧
    (after (at200 0xD121 (fun s => ((regs12f 62 30 9 s)).setI 0))).getV vf = 0 := by decide
theorem test_drw_collides :
    (after (at200 0xD121 (fun s => (s.setDisplay (s.display.setPixel ⟨3, 0, true⟩).2)))).getV vf = 1 := by decide
theorem test_skp_low_nibble :
    (after (at200 0xE29E (fun s => injected 0x0800 0 (s.setV 2 0x1B)))).pc = 0x204 := by decide
theorem test_skp_other_keys :
    (after (at200 0xE29E (fun s => injected 0xFFDF 0 (s.setV 2 5)))).pc = 0x202 := by decide
theorem test_sknp_down :
    (after (at200 0xE2A1 (fun s => injected 0x0020 0 (s.setV 2 5)))).pc = 0x202 := by decide
theorem test_sknp_up :
    (after (at200 0xE2A1 (fun s => injected 0 0 (s.setV 2 5)))).pc = 0x204 := by decide
theorem test_ldVxDT :
    (after (at200 0xF307 (fun s => s.setDT 0x2A))).getV 3 = 0x2A := by decide
theorem test_ldVxK_waits :
    (after (at200 0xF30A (injected 0 0))).pc = 0x200 := by decide
theorem test_ldVxK_least :
    (after (at200 0xF30A (injected 0x0090 0))).getV 3 = 4 ∧
    (after (at200 0xF30A (injected 0x0090 0))).pc = 0x202 := by decide
theorem test_ldDTVx :
    (after (at200 0xF015 (fun s => s.setV 0 3))).dt = 3 := by decide
theorem test_ldSTVx :
    (after (at200 0xF418 (fun s => s.setV 4 0x10))).st = 0x10 := by decide
theorem test_addIVx_past_12_bits :
    (after (at200 0xF21E (fun s => (s.setI 0x0FFF).setV 2 1))).i = 0x1000 := by decide
theorem test_addIVx_wraps :
    (after (at200 0xF21E (fun s => (s.setI 0xFFFF).setV 2 1))).i = 0 := by decide
theorem test_ldFVx_low_nibble :
    (after (at200 0xF029 (fun s => s.setV 0 0x1A))).i = 0x32 := by decide
theorem test_ldBVx :
    ((after (at200 0xF033 (fun s => (s.setI 0x300).setV 0 156))).read1 0x300, (after (at200 0xF033 (fun s => (s.setI 0x300).setV 0 156))).read1 0x301, (after (at200 0xF033 (fun s => (s.setI 0x300).setV 0 156))).read1 0x302) = (1, 5, 6) := by decide
theorem test_ldBVx_wraps_into_font :
    (after (at200 0xF033 (fun s => (s.setI 0x0FFE).setV 0 123))).read1 0 = 3 := by decide
theorem test_ldMemVx_stops_at_x :
    ((after (at200 0xF155 (fun s => ((s.setI 0x400).setV 0 0xAA).setV 1 0xBB))).read1 0x401, (after (at200 0xF155 (fun s => ((s.setI 0x400).setV 2 0xAA).setV 1 0xBB))).read1 0x402) = (0xBB, 0) := by decide
theorem test_ldMemVx_keeps_I :
    (after (at200 0xF055 (fun s => s.setI 0x310))).i = 0x310 := by decide
theorem test_ldVxMem_glyph_zero :
    (after (at200 0xF465 id)).getV 4 = 0xF0 ∧
    (after (at200 0xF465 id)).getV 3 = 0x90 ∧
    (after (at200 0xF465 id)).getV 5 = 0 := by decide
theorem test_ldVxMem_wraps :
    (after (at200 0xF165 (fun s => poke 0xFFF 0x5A (s.setI 0x0FFF)))).getV 0 = 0x5A ∧
    (after (at200 0xF165 (fun s => poke 0xFFF 0x5A (s.setI 0x0FFF)))).getV 1 = 0xF0 := by decide

/-! The step cycle, faults and parameters -/

theorem test_fetch_wraps : (after ((State.reset.setPc 0xFFF).setMem (memWrite1 [] 0xFFF 0x60))).getV 0 = 0xF0 := by decide
theorem test_fetch_masks_pc : (after ((State.reset.setPc 0x1200).setMem (memWrite2 [] 0x200 0x6107))).pc = 0x1202 := by decide
theorem test_unrecognised : (after (at200 0xF000 id)).fault = some (.unrecognizedOpcode 0xF000) := by decide
theorem test_unrecognised_pc : (after (at200 0xF000 id)).pc = 0x202 := by decide
theorem test_not_implemented :
    (after (at200 0xD125 (fun s => { s with cfg := { Config.default with unimplemented := [.drw] } }))).fault =
      some (.unrecognizedOpcode 0xD125) := by decide
theorem test_unbounded_stack :
    (after (at200 0x2300 (fun s => { (s.setStack (List.replicate 16 0)) with
      cfg := { Config.default with stackDepth := .unbounded } }))).stack.length = 17 := by decide
theorem test_fault_codes : (Fault.code (.unrecognizedOpcode 0), Fault.code .stackUnderflow, Fault.code .stackOverflow) = (1, 2, 3) := by
  decide

/-! The host's operations -/

theorem test_load_places : (load [0x60, 0x05] State.reset).read1 0x201 = 5 := by decide
theorem test_load_keeps_pc : (load [1] (State.reset.setPc 0x20A)).pc = 0x20A := by decide
theorem test_first_tick : (tick 5000 (State.reset.setDT 10)).dt = 10 := by decide
theorem test_tick_six_periods : (tick 5100 (tick 5000 (State.reset.setDT 10))).dt = 4 := by decide
theorem test_tick_saturates : (tick 4250 (tick 0 (State.reset.setDT 255))).dt = 0 := by decide
theorem test_tick_254 : (tick 4249 (tick 0 (State.reset.setDT 255))).dt = 1 := by decide
theorem test_tick_back : (tick 20 (tick 34 (tick 0 (State.reset.setDT 5)))).dt = 3 := by decide
theorem test_sound_on : soundOn (State.reset.setST 1) = true := by decide
theorem test_reset_silent : soundOn State.reset = false := by decide
theorem test_last_font_byte : State.reset.read1 0x04F = 0x80 := by decide
theorem test_font_address_wraps : State.reset.read1 0x1000 = 0xF0 := by decide
theorem test_write16_wraps : memRead1 (memWrite2 [] 0xFFF 0xABCD) 0 = 0xCD := by decide
theorem test_write_masks : memRead1 (memWrite1 [] 0x300 0x1FF) 0x300 = 0xFF := by decide
theorem test_write_canonical : memWrite1 (memWrite1 [] 0x300 7) 0x300 0 = [] := by decide
theorem test_load_shorter_second : ((load [9] (load [1, 2] State.reset)).read1 0x200, (load [9] (load [1, 2] State.reset)).read1 0x201) = (9, 2) := by
  decide

/-! Witnesses: for each statement with hypotheses, or with clauses that have them, a state and operands that meet
them, at the ends of their ranges where they have ends. -/

/-- A small machine away from reset: a display of 2 by 1 with one pixel lit, a stack of depth 1 that is full, one
byte of memory listed. -/
def tiny : State :=
  { ((State.reset.setStack [0x204]).setMem (memWrite1 [] 0x300 7)).setDisplay ⟨[[false, true]], [.clear]⟩ with
    cfg := { Config.default with displayW := 2, displayH := 1, stackDepth := .entries 1 } }

/-- `tiny` with VF_ORDER = as_listed. -/
def listed : State := { tiny with cfg := { tiny.cfg with vfOrder := .asListed } }

theorem witness_DecodeOfEncode : (Instr.sys 0x0E1).wf = true := by decide
theorem witness_EncodeOfDecode : decodeWord 0x8FFE = .instr (.shl 0xF 0xF) := by decide
theorem witness_UnrecognisedWordsExact : decodeWord 0xFFFF = .unrecognised 0xFFFF := by decide
theorem witness_ByteWriteThenRead_top : (0x1FFF : Nat) % 4096 = 0xFFF % 4096 := by decide
theorem witness_WordWriteThenRead_outside :
    (1 : Nat) % 4096 ≠ 0xFFF % 4096 ∧ (1 : Nat) % 4096 ≠ (0xFFF + 1) % 4096 := by decide
theorem witness_BulkWrite_no_later_byte :
    ∀ j, 0 < j → j < [1, 2].length → (0xFFF + j) % 4096 ≠ (0xFFF + 0) % 4096 := by
  intro j h1 h2
  have : j = 1 := by simp at h2; omega
  subst this
  decide
theorem witness_BulkWrite_outside :
    ∀ k, k < [1, 2].length → (1 : Nat) % 4096 ≠ (0xFFF + k) % 4096 := by decide

theorem witness_SysDoesNothing : (0x0E1 : Addr) ≠ 0x0E0 ∧ (0x0E1 : Addr) ≠ 0x0EE := by decide
theorem witness_Ret_pops : (State.reset.setStack [0x206, 0x30A]).stack = [0x206] ++ [0x30A] := by decide
theorem witness_Ret_underflows : State.reset.stack = [] := by decide
theorem witness_Call_pushes :
    (State.reset.setStack (List.replicate 15 0)).cfg.stackDepth ≠ .entries (List.replicate 15 (0 : Word)).length := by
  decide
theorem witness_Call_unbounded :
    ({ tiny with cfg := { tiny.cfg with stackDepth := .unbounded } } : State).cfg.stackDepth ≠
      .entries tiny.stack.length := by decide
theorem witness_Call_overflows :
    (State.reset.setStack (List.replicate 16 0)).cfg.stackDepth = .entries (List.replicate 16 (0 : Word)).length := by
  decide
theorem witness_CallThenRetReturns : State.reset.cfg.stackDepth ≠ .entries State.reset.stack.length := by decide

theorem witness_flag_last : State.reset.cfg.vfOrder = .flagLast ∧ (0xE : Reg) ≠ vf := by decide
theorem witness_as_listed : listed.cfg.vfOrder = .asListed ∧ (0 : Reg) ≠ vf := by decide
theorem witness_LdFGlyphAddress : State.reset.cfg.glyphBytes ≤ 4369 := by decide
theorem witness_LdFGlyphAddress_largest :
    ({ tiny with cfg := { tiny.cfg with glyphBytes := 4369 } } : State).cfg.glyphBytes ≤ 4369 := by decide
theorem witness_StoreRegisters_last : (0xF : Reg).toNat ≤ (0xF : Reg).toNat := by decide
theorem witness_MemSameOutside_sixteen : ∀ k, k < 16 → ea 0xFFE ≠ ea (0xFFF + k) := by decide
theorem witness_LoadRegisters_beyond : ¬ ((1 : Reg).toNat ≤ (0 : Reg).toNat) := by decide
theorem witness_StoreSeenByNextFetch :
    1 ≤ (1 : Reg).toNat ∧ (State.reset.setI 0x1200).dataBase % 4096 = (State.reset.setI 0x1200).pc.toNat % 4096 := by
  decide

theorem witness_Drw_shape : tiny.displayShaped ∧ tiny.cfg.wf = true := by
  unfold State.displayShaped
  decide
theorem witness_Drw_pixel : 1 < tiny.cfg.displayW ∧ 0 < tiny.cfg.displayH := by decide
/-- A glyph row of eight columns on a display of two: its second bit falls on the lit pixel. -/
theorem witness_Drw_collides : Collides tiny.display (spriteRequests (tiny.setI 2) 0 0 1) :=
  ⟨(spriteRequests (tiny.setI 2) 0 0 1).take 3, ⟨1, 0, true⟩, (spriteRequests (tiny.setI 2) 0 0 1).drop 4, by decide⟩
/-- A sprite of no rows issues no request. -/
theorem witness_Drw_no_collision : ¬ Collides tiny.display (spriteRequests tiny 0 0 0) := by
  rintro ⟨before, p, rest, h, -⟩
  have : spriteRequests tiny 0 0 0 = [] := by decide
  rw [this] at h
  exact absurd h.symm (by simp)
theorem witness_DrawTwice :
    (0 : Reg) ≠ vf ∧ (0xE : Reg) ≠ vf ∧ 0 < tiny.cfg.displayW ∧ 0 < tiny.cfg.displayH := by decide

theorem witness_KeyWait_none : (injected 0 0 State.reset).keys = 0 := by decide
theorem witness_KeyWait_least_first :
    (injected 0x0001 0 State.reset).keys.getLsbD 0 = true ∧
      ∀ j, j < 0 → (injected 0x0001 0 State.reset).keys.getLsbD j = false := by decide
theorem witness_KeyWait_least_last :
    (injected 0x8000 0 State.reset).keys.getLsbD 15 = true ∧
      ∀ j, j < 15 → (injected 0x8000 0 State.reset).keys.getLsbD j = false := by decide
theorem witness_Draws_keys : (injected 0x0090 5 State.reset).inputs.keyQueue = 0x0090 :: [] := by decide
theorem witness_Draws_random : (injected 0x0090 5 State.reset).inputs.rndQueue = 5 :: [] := by decide
theorem witness_Rnd_others : ∀ (r : Reg) (b : Byte), Instr.skp 0 ≠ .rnd r b := by intro r b; exact nofun
theorem witness_Draws_none_injected :
    State.reset.inputs.keyQueue = [] ∧ State.reset.inputs.rndQueue = [] := by decide
theorem witness_Draws_others : .inputs ∉ partsOf (.drw 0 1 5) := by decide

theorem witness_StepRuns :
    (at200 0x6005 id).fault = none ∧
    decodeBytes [(at200 0x6005 id).read1 (at200 0x6005 id).pc.toNat,
      (at200 0x6005 id).read1 ((at200 0x6005 id).pc.toNat + 1)] = .word (.instr (.ldByte 0 5)) [] ∧
    (at200 0x6005 id).cfg.implements (Instr.ldByte 0 5).mnemonic = true := by decide
theorem witness_StepRaises_no_row :
    (at200 0xF000 id).fault = none ∧ ∃ v, decodeWord (at200 0xF000 id).fetchWord = .unrecognised v :=
  ⟨by decide, 0xF000, by decide⟩
/-- A machine without DRW, a DRW next. -/
def noDrw : State := at200 0xD125 (fun s => { s with cfg := { Config.default with unimplemented := [.drw] } })
theorem witness_StepRaises_not_implemented :
    noDrw.fault = none ∧
      ∃ i, decodeWord noDrw.fetchWord = .instr i ∧ noDrw.cfg.implements i.mnemonic = false :=
  ⟨by decide, .drw 1 2 5, by decide, by decide⟩
theorem witness_LatchedFaultStopsStep : (State.reset.raise .stackOverflow).fault = some .stackOverflow := by decide
theorem witness_NothingElseStops : State.reset.fault = none := by decide
/-- The hypotheses of FaultsAreThreeAndPrecise, at each of the three faults. -/
theorem witness_Faults_unrecognised :
    (at200 0xF000 id).fault = none ∧ step (at200 0xF000 id) = .next (after (at200 0xF000 id)) ∧
      (after (at200 0xF000 id)).fault = some (.unrecognizedOpcode 0xF000) := ⟨by decide, rfl, by decide⟩
theorem witness_Faults_underflow :
    (at200 0x00EE id).fault = none ∧ step (at200 0x00EE id) = .next (after (at200 0x00EE id)) ∧
      (after (at200 0x00EE id)).fault = some .stackUnderflow := ⟨by decide, rfl, by decide⟩
theorem witness_Faults_overflow :
    (tiny.placeWord 0x2300).fault = none ∧
      step (tiny.placeWord 0x2300) = .next (after (tiny.placeWord 0x2300)) ∧
      (after (tiny.placeWord 0x2300)).fault = some .stackOverflow := ⟨by decide, rfl, by decide⟩
theorem witness_JumpToSelf :
    (at200 0x1200 id).fault = none ∧ (at200 0x1200 id).cfg.implements .jp = true ∧
      (at200 0x1200 id).pc.toNat < 4096 ∧ (at200 0x1200 id).fetchWord.toNat = 0x1000 + (at200 0x1200 id).pc.toNat := by
  decide

theorem witness_WriteMatrix : exec (.ldByte 0xF 1) tiny = .next (tiny.setV 0xF 1) := rfl
theorem witness_Flag_written :
    exec (.addReg 0 1) tiny = .next ((tiny.setV 0 0).setV 0xF 0) ∧ writesFlag (.addReg 0 1) = true ∧
      tiny.cfg.vfOrder = .flagLast := ⟨rfl, by decide, by decide⟩
theorem witness_Flag_kept :
    exec (.ldByte 0xE 1) tiny = .next (tiny.setV 0xE 1) ∧ writesFlag (.ldByte 0xE 1) = false ∧
      vf ∉ destsOf (.ldByte 0xE 1) := ⟨rfl, by decide, by decide⟩
theorem witness_step_next : step (tiny.placeWord 0x6005) = .next (after (tiny.placeWord 0x6005)) := rfl

theorem witness_EveryMove_inv : tiny.Inv := by
  unfold State.Inv State.stackBounded State.displayShaped
  exact ⟨by decide, Nat.le_refl 1, by decide, by decide⟩
theorem witness_EveryMove_step : move .step (tiny.placeWord 0x00EE) = .next (after (tiny.placeWord 0x00EE)) := rfl
theorem witness_EveryMove_tick : move (.tick 5) tiny = .next (tick 5 tiny) := rfl
theorem witness_EveryMove_load : move (.load [1, 2]) tiny = .next (load [1, 2] tiny) := rfl

theorem witness_Construction :
    tiny.cfg.wf = true ∧ 79 < tiny.cfg.fontTable.length ∧ tiny.cfg.fontTable.length ≤ 80 ∧
      tiny.cfg.fontTable.length ≤ 4095 := by decide
theorem witness_Load_byte : 1 < [7, 8].length ∧ [7, 8].length ≤ 1 + 4096 := by decide
theorem witness_Load_outside : ∀ k, k < [7, 8].length → ea 0x202 ≠ ea (0x200 + k) := by decide
/-- With the origin set, one period done of 60 a second. -/
def ticking : State := tick 17 (tick 0 (State.reset.setDT 9))
theorem witness_Tick_first : 0 < State.reset.cfg.tsPerSec ∧ State.reset.tickOrigin = none := by decide
theorem witness_Tick_before_origin : 0 < (tick 5 State.reset).cfg.tsPerSec ∧ (tick 5 State.reset).tickOrigin = some 5 ∧ 4 < 5 := by decide
theorem witness_Tick_no_new_period :
    0 < ticking.cfg.tsPerSec ∧ ticking.tickOrigin = some 0 ∧ 0 ≤ 33 ∧
      (33 - 0) * ticking.cfg.timerHz / ticking.cfg.tsPerSec ≤ ticking.ticksDone := by decide
theorem witness_Tick_new_period :
    0 < ticking.cfg.tsPerSec ∧ ticking.tickOrigin = some 0 ∧ 0 ≤ 34 ∧
      ticking.ticksDone < (34 - 0) * ticking.cfg.timerHz / ticking.cfg.tsPerSec := by decide
theorem witness_TickOnTheWay : 0 < ticking.cfg.tsPerSec ∧ ticking.tickOrigin = some 0 ∧ 20 ≤ 34 := by decide

end Sys2Proof.Tests
end

section
/-! The reasoning rules of the state's parts (spec/10_state.md): what each operation writes and what it leaves,
said once; the whole-machine rules and the reset state follow from them. -/

namespace Sys2Proof.Machine

/-! ## What an operation may write -/

/-- `t` differs from `s` at most in the registers `rs` and the parts `ps`. Memory outside `ps` is the same list of
cells, which says more than the byte for byte of `Frame` and is what the canonical form needs. -/
structure WritesOnly (rs : List Reg) (ps : List Part) (s t : State) : Prop where
  regs : RegsSameBut rs s t
  cfg : t.cfg = s.cfg
  i : .i ∉ ps → t.i = s.i
  pc : .pc ∉ ps → t.pc = s.pc
  stack : .stack ∉ ps → t.stack = s.stack
  dt : .dt ∉ ps → t.dt = s.dt
  st : .st ∉ ps → t.st = s.st
  mem : .mem ∉ ps → t.mem = s.mem
  tick : .tick ∉ ps → t.tickOrigin = s.tickOrigin ∧ t.ticksDone = s.ticksDone
  fault : .fault ∉ ps → t.fault = s.fault
  display : .display ∉ ps → t.display = s.display
  inputs : .inputs ∉ ps → t.inputs = s.inputs

namespace WritesOnly

section
variable {rs : List Reg} {ps : List Part} {s t : State}

theorem refl : WritesOnly rs ps s s where
  regs _ _ := rfl
  cfg := rfl
  i _ := rfl
  pc _ := rfl
  stack _ := rfl
  dt _ := rfl
  st _ := rfl
  mem _ := rfl
  tick _ := ⟨rfl, rfl⟩
  fault _ := rfl
  display _ := rfl
  inputs _ := rfl

theorem frame (h : WritesOnly rs ps s t) : Frame ps s t :=
  ⟨h.cfg, h.i, h.pc, h.stack, h.dt, h.st, fun hm a => congrArg (memRead1 · a) (h.mem hm), h.tick, h.fault,
    h.display, h.inputs⟩

/-! One rule per update: it writes the element it is named after. Where the lists are an instruction's own, that they
hold the element is read off `destsOf` and `partsOf`. -/

theorem setV (h : WritesOnly rs ps s t) {x : Reg} {b : Byte} (hx : x ∈ rs := by simp [destsOf]) :
    WritesOnly rs ps s (t.setV x b) :=
  { h with regs := fun r hr => (t.getV_setV_ne b (ne_of_mem_of_not_mem hx hr).symm).trans (h.regs r hr) }

theorem setI (h : WritesOnly rs ps s t) {w : Word} (hp : .i ∈ ps := by simp [partsOf]) :
    WritesOnly rs ps s (t.setI w) :=
  { h with i := absurd hp }

theorem setPc (h : WritesOnly rs ps s t) {w : Word} (hp : .pc ∈ ps := by simp [partsOf]) :
    WritesOnly rs ps s (t.setPc w) :=
  { h with pc := absurd hp }

theorem setStack (h : WritesOnly rs ps s t) {l : List Word} (hp : .stack ∈ ps := by simp [partsOf]) :
    WritesOnly rs ps s (t.setStack l) :=
  { h with stack := absurd hp }

theorem setDT (h : WritesOnly rs ps s t) {b : Byte} (hp : .dt ∈ ps := by simp [partsOf]) :
    WritesOnly rs ps s (t.setDT b) :=
  { h with dt := absurd hp }

theorem setST (h : WritesOnly rs ps s t) {b : Byte} (hp : .st ∈ ps := by simp [partsOf]) :
    WritesOnly rs ps s (t.setST b) :=
  { h with st := absurd hp }

theorem setMem (h : WritesOnly rs ps s t) {m : Memory} (hp : .mem ∈ ps := by simp [partsOf]) :
    WritesOnly rs ps s (t.setMem m) :=
  { h with mem := absurd hp }

theorem setTick (h : WritesOnly rs ps s t) {o : Option Nat} {n : Nat} (hp : .tick ∈ ps := by simp [partsOf]) :
    WritesOnly rs ps s (t.setTick o n) :=
  { h with tick := absurd hp }

theorem raise (h : WritesOnly rs ps s t) {f : Fault} (hp : .fault ∈ ps := by simp [partsOf]) :
    WritesOnly rs ps s (t.raise f) :=
  { h with fault := absurd hp }

theorem setDisplay (h : WritesOnly rs ps s t) {d : Display} (hp : .display ∈ ps := by simp [partsOf]) :
    WritesOnly rs ps s (t.setDisplay d) :=
  { h with display := absurd hp }

theorem setInputs (h : WritesOnly rs ps s t) {inp : Inputs} (hp : .inputs ∈ ps := by simp [partsOf]) :
    WritesOnly rs ps s (t.setInputs inp) :=
  { h with inputs := absurd hp }

/-! The shared operations -/

theorem skipIf (h : WritesOnly rs ps s t) {c : Bool} (hp : .pc ∈ ps := by simp [partsOf]) :
    WritesOnly rs ps s (t.skipIf c) :=
  t.skipIf_eq c ▸ h.setPc hp

theorem returnFromCall (h : WritesOnly rs ps s t)
    (hpc : .pc ∈ ps := by simp [partsOf]) (hst : .stack ∈ ps := by simp [partsOf])
    (hf : .fault ∈ ps := by simp [partsOf]) :
    WritesOnly rs ps s t.returnFromCall := by
  obtain ⟨-, e⟩ | ⟨_, _, -, e⟩ := t.returnFromCall_cases <;> rw [e]
  · exact h.raise hf
  · exact (h.setStack hst).setPc hpc

theorem callTo (h : WritesOnly rs ps s t) {w : Word}
    (hpc : .pc ∈ ps := by simp [partsOf]) (hst : .stack ∈ ps := by simp [partsOf])
    (hf : .fault ∈ ps := by simp [partsOf]) :
    WritesOnly rs ps s (t.callTo w) := by
  obtain ⟨-, e⟩ | ⟨-, e⟩ := t.callTo_cases w <;> rw [e]
  · exact h.raise hf
  · exact (h.setStack hst).setPc hpc

theorem resultThenFlag (h : WritesOnly rs ps s t) {x : Reg} {r f : Byte}
    (hx : x ∈ rs := by simp [destsOf]) (hf : vf ∈ rs := by simp [destsOf]) :
    WritesOnly rs ps s (t.resultThenFlag x r f) :=
  (h.setV hx).setV hf

theorem flagThenResult (h : WritesOnly rs ps s t) {x : Reg} {r f : Byte} (hx : x ∈ rs) (hf : vf ∈ rs) :
    WritesOnly rs ps s (t.flagThenResult x r f) :=
  (h.setV hf).setV hx

theorem writeDifference (h : WritesOnly rs ps s t) {x : Reg} {r f : Byte}
    (hx : x ∈ rs := by simp [destsOf]) (hf : vf ∈ rs := by simp [destsOf]) :
    WritesOnly rs ps s (t.writeDifference x r f) := by
  obtain ⟨-, e⟩ | ⟨-, e⟩ := t.writeDifference_cases x r f <;> rw [e]
  · exact h.resultThenFlag hx hf
  · exact h.flagThenResult hx hf

theorem writeShift (h : WritesOnly rs ps s t) {x : Reg} {g f : Byte → Byte}
    (hx : x ∈ rs := by simp [destsOf]) (hf : vf ∈ rs := by simp [destsOf]) :
    WritesOnly rs ps s (t.writeShift x g f) := by
  obtain ⟨-, e⟩ | ⟨-, e⟩ := t.writeShift_cases x g f <;> rw [e]
  · exact h.resultThenFlag hx hf
  · exact h.flagThenResult hx hf

theorem loadRegs (h : WritesOnly rs ps s t) {a n : Nat} (hr : ∀ k < n, BitVec.ofNat 4 k ∈ rs) :
    WritesOnly rs ps s (t.loadRegs a n) := by
  induction n with
  | zero => exact h
  | succ n ih => exact (ih fun k hk => hr k (Nat.lt_succ_of_lt hk)).setV (hr n n.lt_succ_self)

end

end WritesOnly

/-! ## The write matrix -/

/-- What holds after an instruction holds of any next state `exec` answers. -/
theorem Runs.of_next {i : Instr} {s t : State} {P : State → Prop} (h : Runs i s P) (ht : exec i s = .next t) :
    P t := by
  obtain ⟨u, hu, hP⟩ := h
  cases hu.symm.trans ht
  exact hP

/-- Every instruction completes, and writes only its destinations and the parts of its row of R23. -/
theorem exec_writesOnly (i : Instr) (s : State) : Runs i s (WritesOnly (destsOf i) (partsOf i) s) := by
  cases i with
  | sys => exact ⟨_, rfl, .refl⟩
  | cls => exact ⟨_, rfl, WritesOnly.refl.setDisplay⟩
  | ret => exact ⟨_, rfl, WritesOnly.refl.returnFromCall⟩
  | call => exact ⟨_, rfl, WritesOnly.refl.callTo⟩
  | jp | jpV0 => exact ⟨_, rfl, WritesOnly.refl.setPc⟩
  | seByte | sneByte | seReg | sneReg => exact ⟨_, rfl, WritesOnly.refl.skipIf⟩
  | ldByte | addByte | ldReg | orReg | andReg | xorReg | ldVxDT => exact ⟨_, rfl, WritesOnly.refl.setV⟩
  | addReg => exact ⟨_, rfl, WritesOnly.refl.resultThenFlag⟩
  | subReg | subnReg => exact ⟨_, rfl, WritesOnly.refl.writeDifference⟩
  | shr | shl => exact ⟨_, rfl, WritesOnly.refl.writeShift⟩
  | ldI | addIVx | ldFVx => exact ⟨_, rfl, WritesOnly.refl.setI⟩
  | rnd => exact ⟨_, rfl, WritesOnly.refl.setInputs.setV⟩
  | drw => exact ⟨_, rfl, WritesOnly.refl.setDisplay.setV⟩
  | skp | sknp => exact ⟨_, rfl, WritesOnly.refl.setInputs.skipIf⟩
  | ldVxK x =>
    have sampled : WritesOnly (destsOf (.ldVxK x)) (partsOf (.ldVxK x)) s s.sampledKeys :=
      WritesOnly.refl.setInputs
    refine ⟨_, rfl, ?_⟩
    split
    · exact sampled.setPc
    · exact sampled.setV
  | ldDTVx => exact ⟨_, rfl, WritesOnly.refl.setDT⟩
  | ldSTVx => exact ⟨_, rfl, WritesOnly.refl.setST⟩
  | ldBVx | ldMemVx => exact ⟨_, rfl, WritesOnly.refl.setMem⟩
  | ldVxMem =>
    exact ⟨_, rfl, WritesOnly.refl.loadRegs fun _ hk => List.mem_map_of_mem (List.mem_range.mpr hk)⟩

/-- Settles O48, from what each state operation writes. -/
theorem writeMatrix : Obligations.WriteMatrix := by
  intro i s t ht
  have h := (exec_writesOnly i s).of_next ht
  exact ⟨h.regs, h.frame⟩

/-! ## The flag -/

/-- SUB and SUBN with the flag written last leave the flag in `VF` (R91). -/
theorem State.getV_vf_writeDifference {s : State} (h : s.cfg.vfOrder = .flagLast) (x : Reg) (r f : Byte) :
    (s.writeDifference x r f).getV vf = f := by
  simp [State.writeDifference, h, State.getV_resultThenFlag]

/-- SHR and SHL with the flag written last leave the flag of the old operand in `VF` (R91). -/
theorem State.getV_vf_writeShift {s : State} (h : s.cfg.vfOrder = .flagLast) (x : Reg) (g f : Byte → Byte) :
    (s.writeShift x g f).getV vf = f (s.getV x) := by
  simp [State.writeShift, h, State.getV_resultThenFlag]

/-- An instruction that writes the flag leaves a `flagByte` in `VF`. -/
theorem exec_flag {i : Instr} {s : State} (hi : writesFlag i = true) (ho : s.cfg.vfOrder = .flagLast) :
    Runs i s (fun t => ∃ c, t.getV vf = flagByte c) := by
  cases i with
  | addReg => exact ⟨_, rfl, _, State.getV_setV_same ..⟩
  | subReg | subnReg => exact ⟨_, rfl, _, State.getV_vf_writeDifference ho ..⟩
  | shr | shl => exact ⟨_, rfl, _, State.getV_vf_writeShift ho ..⟩
  | drw => exact ⟨_, rfl, _, State.getV_setV_same ..⟩
  | _ => cases hi

/-- Settles O49: the flag written is a `flagByte`, and the write matrix keeps `VF` elsewhere. -/
theorem flagIsZeroOrOne : Obligations.FlagIsZeroOrOne := by
  intro i s t ht
  refine ⟨fun hi ho => ?_, fun _ hvf => (exec_writesOnly i s).of_next ht |>.regs vf hvf⟩
  obtain ⟨c, hc⟩ := (exec_flag hi ho).of_next ht
  exact hc ▸ flagByte_zero_or_one c

/-! ## The step -/

theorem step_of_admitted {s : State} {i : Instr} (hf : s.fault = none) (ha : admitted s.cfg s.fetchWord = some i) :
    step s = exec i s.advancePc := by
  simp [step, hf, ha]

theorem step_of_not_admitted {s : State} (hf : s.fault = none) (ha : admitted s.cfg s.fetchWord = none) :
    step s = .next (s.advancePc.raise (.unrecognizedOpcode s.fetchWord)) := by
  simp [step, hf, ha]

/-- A step that answers a next state starts with the latch clear, and runs the admitted instruction or raises
UnrecognizedOpcode (R70 to R74, R137). -/
theorem step_cases {s t : State} (h : step s = .next t) :
    s.fault = none ∧
    ((∃ i, admitted s.cfg s.fetchWord = some i ∧ exec i s.advancePc = .next t) ∨
     (admitted s.cfg s.fetchWord = none ∧ t = s.advancePc.raise (.unrecognizedOpcode s.fetchWord))) := by
  cases hf : s.fault with
  | some f => simp [step, hf] at h
  | none =>
    cases ha : admitted s.cfg s.fetchWord with
    | some i => exact ⟨rfl, .inl ⟨i, rfl, (step_of_admitted hf ha).symm.trans h⟩⟩
    | none => exact ⟨rfl, .inr ⟨rfl, by simpa [step_of_not_admitted hf ha] using h.symm⟩⟩

/-! ## What no step reads -/

/-- The elements no step reads, replaced: the tick bookkeeping (R18) and the sound timer (R16). -/
def State.setUnread (s : State) (o : Option Nat) (n : Nat) (b : Byte) : State := (s.setTick o n).setST b

section
variable (s : State) (o : Option Nat) (n : Nat) (b : Byte)

@[simp] theorem State.setUnread_cfg : (s.setUnread o n b).cfg = s.cfg := rfl
@[simp] theorem State.setUnread_stack : (s.setUnread o n b).stack = s.stack := rfl

/-! The operations that branch do so on none of these elements. -/

theorem State.skipIf_setUnread (c : Bool) : (s.setUnread o n b).skipIf c = (s.skipIf c).setUnread o n b := by
  cases c <;> rfl

theorem State.returnFromCall_setUnread :
    (s.setUnread o n b).returnFromCall = s.returnFromCall.setUnread o n b := by
  simp only [State.returnFromCall, State.setUnread_stack]
  cases s.stack.getLast? <;> rfl

theorem State.callTo_setUnread (w : Word) : (s.setUnread o n b).callTo w = (s.callTo w).setUnread o n b := by
  simp only [State.callTo, apply_ite (State.setUnread · o n b)]
  rfl

theorem State.writeDifference_setUnread (x : Reg) (r f : Byte) :
    (s.setUnread o n b).writeDifference x r f = (s.writeDifference x r f).setUnread o n b := by
  simp only [State.writeDifference, State.setUnread_cfg]
  cases s.cfg.vfOrder <;> rfl

theorem State.writeShift_setUnread (x : Reg) (g f : Byte → Byte) :
    (s.setUnread o n b).writeShift x g f = (s.writeShift x g f).setUnread o n b := by
  simp only [State.writeShift, State.setUnread_cfg]
  cases s.cfg.vfOrder <;> rfl

theorem State.loadRegs_setUnread (a k : Nat) :
    (s.setUnread o n b).loadRegs a k = (s.loadRegs a k).setUnread o n b := by
  induction k with
  | zero => rfl
  | succ k ih => exact congrArg (State.setV · (BitVec.ofNat 4 k) (s.read1 (a + k))) ih

/-- Every instruction but LD ST,Vx does the same whatever the unread elements hold, and leaves them so. -/
theorem exec_setUnread {i : Instr} (hi : .st ∉ partsOf i) :
    Runs i s (fun t => exec i (s.setUnread o n b) = .next (t.setUnread o n b)) := by
  cases i with
  | seByte | sneByte | seReg | sneReg => exact ⟨_, rfl, congrArg _ (s.skipIf_setUnread ..)⟩
  | skp | sknp => exact ⟨_, rfl, congrArg _ (s.sampledKeys.skipIf_setUnread ..)⟩
  | ret => exact ⟨_, rfl, congrArg _ (State.returnFromCall_setUnread ..)⟩
  | call => exact ⟨_, rfl, congrArg _ (State.callTo_setUnread ..)⟩
  | subReg | subnReg => exact ⟨_, rfl, congrArg _ (State.writeDifference_setUnread ..)⟩
  | shr | shl => exact ⟨_, rfl, congrArg _ (State.writeShift_setUnread ..)⟩
  | ldVxK =>
    refine ⟨_, rfl, congrArg Host.Outcome.next ?_⟩
    rw [apply_ite (State.setUnread · o n b)]
    rfl
  | ldVxMem => exact ⟨_, rfl, congrArg _ (State.loadRegs_setUnread ..)⟩
  | ldSTVx => simp [partsOf] at hi
  | _ => exact ⟨_, rfl, rfl⟩

/-- LD ST,Vx sets the sound timer from a register, whatever it held. -/
theorem exec_ldSTVx_setUnread (x : Reg) :
    Runs (.ldSTVx x) s (fun t => exec (.ldSTVx x) (s.setUnread o n b) = .next (t.setUnread o n t.st)) :=
  ⟨_, rfl, rfl⟩

end

/-- LD ST,Vx is the one instruction with the sound timer in its row of R23. -/
theorem eq_ldSTVx_of_st_mem_partsOf {i : Instr} (hi : .st ∈ partsOf i) : ∃ x, i = .ldSTVx x := by
  cases i with
  | ldSTVx x => exact ⟨x, rfl⟩
  | _ => simp [partsOf] at hi

theorem tick_not_mem_partsOf (i : Instr) : .tick ∉ partsOf i := by
  cases i <;> simp [partsOf]

/-- A step keeps the tick bookkeeping. -/
theorem step_tick {s t : State} (h : step s = .next t) : t.tickOrigin = s.tickOrigin ∧ t.ticksDone = s.ticksDone := by
  obtain ⟨-, ⟨i, -, hx⟩ | ⟨-, rfl⟩⟩ := step_cases h
  · exact ((exec_writesOnly i s.advancePc).of_next hx).tick (tick_not_mem_partsOf i)
  · exact ⟨rfl, rfl⟩

/-- A step does the same whatever the unread elements hold: it either keeps the sound timer, or sets it to a value
that does not depend on them. -/
theorem step_setUnread {s t : State} (h : step s = .next t) :
    (t.st = s.st ∧ ∀ o n b, step (s.setUnread o n b) = .next (t.setUnread o n b)) ∨
    (∀ o n b, step (s.setUnread o n b) = .next (t.setUnread o n t.st)) := by
  obtain ⟨hf, ⟨i, ha, hx⟩ | ⟨ha, rfl⟩⟩ := step_cases h
  · have same : ∀ o n b, step (s.setUnread o n b) = exec i (s.advancePc.setUnread o n b) :=
      fun o n b => step_of_admitted (s := s.setUnread o n b) hf ha
    by_cases hi : .st ∈ partsOf i
    · obtain ⟨x, rfl⟩ := eq_ldSTVx_of_st_mem_partsOf hi
      exact .inr fun o n b => (same o n b).trans ((exec_ldSTVx_setUnread _ o n b x).of_next hx)
    · exact .inl ⟨((exec_writesOnly i s.advancePc).of_next hx).st hi,
        fun o n b => (same o n b).trans ((exec_setUnread _ o n b hi).of_next hx)⟩
  · exact .inl ⟨rfl, fun o n b => step_of_not_admitted (s := s.setUnread o n b) hf ha⟩

/-- Settles O50: replacing the bookkeeping is replacing the unread elements with the sound timer as it was. -/
theorem tickBookkeepingUnseen : Obligations.TickBookkeepingUnseen := by
  intro s t o n h
  refine ⟨?_, step_tick h⟩
  obtain ⟨hst, same⟩ | same := step_setUnread h
  · exact (same o n s.st).trans (by rw [← hst]; rfl)
  · exact same o n s.st

/-- Settles O51: replacing the sound timer is replacing the unread elements with the bookkeeping as it was. -/
theorem soundTimerUnseen : Obligations.SoundTimerUnseen := by
  intro s t b h
  obtain ⟨ho, hn⟩ := step_tick h
  obtain ⟨hst, same⟩ | same := step_setUnread h
  · refine ⟨t.setST b, (same s.tickOrigin s.ticksDone b).trans ?_, rfl, .inl ⟨hst, rfl⟩⟩
    rw [← ho, ← hn]; rfl
  · refine ⟨t, (same s.tickOrigin s.ticksDone b).trans ?_, rfl, .inr rfl⟩
    rw [← ho, ← hn]; rfl

/-! ## The invariant -/

/-- The stack bound says something only of a bounded depth (R14). -/
theorem State.stackBounded_iff (s : State) :
    s.stackBounded ↔ ∀ n, s.cfg.stackDepth = .entries n → s.stack.length ≤ n := by
  unfold State.stackBounded
  cases s.cfg.stackDepth <;> simp

namespace State.Inv

variable {s t : State}

theorem mem_wf (h : s.Inv) : Memory.wf s.mem := h.1

theorem stackBounded (h : s.Inv) : s.stackBounded := h.2.1

theorem displayShaped (h : s.Inv) : s.displayShaped := h.2.2.1

theorem cfg_wf (h : s.Inv) : s.cfg.wf = true := h.2.2.2

/-- What leaves memory, the stack and the display alone keeps the invariant. -/
theorem of_writesOnly {rs : List Reg} {ps : List Part} (h : s.Inv) (w : WritesOnly rs ps s t)
    (hm : .mem ∉ ps) (hs : .stack ∉ ps) (hd : .display ∉ ps) : t.Inv := by
  unfold State.Inv State.stackBounded State.displayShaped
  rw [w.cfg, w.mem hm, w.stack hs, w.display hd]
  exact h

theorem setMem (h : s.Inv) {m : Memory} (hm : Memory.wf m) : (s.setMem m).Inv :=
  ⟨hm, h.stackBounded, h.displayShaped, h.cfg_wf⟩

theorem setStack (h : s.Inv) {l : List Word} (hl : (s.setStack l).stackBounded) : (s.setStack l).Inv :=
  ⟨h.mem_wf, hl, h.displayShaped, h.cfg_wf⟩

theorem setDisplay (h : s.Inv) {d : Display} (hd : (s.setDisplay d).displayShaped) : (s.setDisplay d).Inv :=
  ⟨h.mem_wf, h.stackBounded, hd, h.cfg_wf⟩

/-- `BulkWrite` keeps the invariant: it keeps memory in canonical form (R36). -/
theorem bulkWrite (h : s.Inv) (a : Nat) (bytes : List Nat) : (s.setMem (bulkWrite s.mem a bytes)).Inv :=
  h.setMem (bulkWrite_wf h.mem_wf a bytes)

/-- RET only takes an entry off the stack (R81). -/
theorem returnFromCall (h : s.Inv) : s.returnFromCall.Inv := by
  obtain ⟨-, e⟩ | ⟨l, w, hl, e⟩ := s.returnFromCall_cases <;> rw [e]
  · exact h
  · refine h.setStack ((State.stackBounded_iff _).mpr fun n hn => ?_)
    have hle := s.stackBounded_iff.mp h.stackBounded n hn
    simp only [hl, List.length_append] at hle
    exact Nat.le_of_succ_le hle

/-- CALL pushes only on a stack that is not full (R83). -/
theorem callTo (h : s.Inv) (w : Word) : (s.callTo w).Inv := by
  obtain ⟨-, e⟩ | ⟨hfull, e⟩ := s.callTo_cases w <;> rw [e]
  · exact h
  · refine h.setStack ((State.stackBounded_iff _).mpr fun n hn => ?_)
    have hle := s.stackBounded_iff.mp h.stackBounded n hn
    have hne : s.stack.length ≠ n := fun e => hfull (e ▸ hn)
    simp only [State.setStack_stack, List.length_append, List.length_singleton]
    omega

/-- CLS keeps the size of the frame buffer (R147). -/
theorem clear (h : s.Inv) : (s.setDisplay s.display.clear).Inv := by
  obtain ⟨hrows, hcols⟩ := h.displayShaped
  obtain ⟨hlen, hall⟩ := s.display.clear_shape _ hcols
  exact h.setDisplay ⟨hlen.trans hrows, hall⟩

/-- Any requests keep the size of the frame buffer (R147). -/
theorem draw (h : s.Inv) (c : Bool) (ps : List PixelReq) : (s.setDisplay (s.display.draw c ps).2).Inv := by
  obtain ⟨hrows, hcols⟩ := h.displayShaped
  obtain ⟨hlen, hall⟩ := s.display.draw_shape c ps _ hcols
  exact h.setDisplay ⟨hlen.trans hrows, hall⟩

end State.Inv

/-- Every instruction keeps the invariant: six write memory, the stack or the display, and the rest touch nothing it
speaks of. -/
theorem exec_inv (i : Instr) {s : State} (h : s.Inv) : Runs i s State.Inv := by
  cases i with
  | ret => exact ⟨_, rfl, h.returnFromCall⟩
  | call => exact ⟨_, rfl, h.callTo _⟩
  | cls => exact ⟨_, rfl, h.clear⟩
  | drw => exact ⟨_, rfl, h.draw ..⟩
  | ldBVx | ldMemVx => exact ⟨_, rfl, h.bulkWrite ..⟩
  | _ =>
    obtain ⟨t, ht, w⟩ := exec_writesOnly _ s
    exact ⟨t, ht, h.of_writesOnly w (by simp [partsOf]) (by simp [partsOf]) (by simp [partsOf])⟩

theorem step_inv {s t : State} (h : s.Inv) (ht : step s = .next t) : t.Inv ∧ t.cfg = s.cfg := by
  obtain ⟨-, ⟨i, -, hx⟩ | ⟨-, rfl⟩⟩ := step_cases ht
  · have hinv : s.advancePc.Inv := h
    exact ⟨(exec_inv i hinv).of_next hx, ((exec_writesOnly i s.advancePc).of_next hx).cfg⟩
  · exact ⟨h, rfl⟩

/-- `tick` writes the timers and its bookkeeping only (R142). -/
theorem tick_writesOnly (k : Nat) (s : State) : WritesOnly [] [.dt, .st, .tick] s (tick k s) := by
  obtain ⟨-, e⟩ | ⟨o, -, -, e⟩ | ⟨o, -, -, -, e⟩ := tick_cases k s <;> rw [e]
  · exact WritesOnly.refl.setTick
  · exact .refl
  · exact WritesOnly.refl.setDT.setST.setTick

/-- Settles O53, move by move. -/
theorem everyMoveKeepsInvariant : Obligations.EveryMoveKeepsInvariant := by
  intro m s t h ht
  cases m with
  | step => exact step_inv h ht
  | tick k =>
    cases ht
    have w := tick_writesOnly k s
    exact ⟨h.of_writesOnly w (by simp) (by simp) (by simp), w.cfg⟩
  | load bytes =>
    cases ht
    exact ⟨h.bulkWrite .., rfl⟩

/-! ## Reset -/

/-- The display before any request has its declared size (R147). -/
theorem Display.initial_shape (c : Config) :
    (Display.initial c).fb.length = c.displayH ∧ ∀ row ∈ (Display.initial c).fb, row.length = c.displayW := by
  refine ⟨List.length_replicate, fun row hrow => ?_⟩
  rw [List.eq_of_mem_replicate hrow, List.length_replicate]

/-- Settles O52: memory lists nothing, the stack is empty, the display is blank, the defaults are well formed. -/
theorem resetMeetsInvariant : Obligations.ResetMeetsInvariant :=
  ⟨nil_wf, Nat.zero_le _, Display.initial_shape _, by decide⟩

/-- Memory at reset lists nothing, so every cell reads as its reset contents. -/
theorem State.reset_read1 {a : Nat} (h : a < memSize) : State.reset.read1 a = Memory.unlisted a :=
  memRead1_of_lt _ h

theorem State.reset_getV (r : Reg) : State.reset.getV r = Config.default.resetV := by
  simp [State.getV, State.reset]

/-- Past the font table an unlisted cell is the fill (R22). -/
theorem Memory.unlisted_of_font_le {a : Nat} (h : Config.default.fontTable.length ≤ a) :
    Memory.unlisted a = Config.default.resetMemFill :=
  List.getD_eq_default _ _ h

/-- Settles O54. -/
theorem resetState : Obligations.ResetState :=
  ⟨rfl, rfl, rfl, rfl, rfl, State.reset_getV, rfl, rfl, rfl, by decide, by decide,
    fun _ hfont hmem => (State.reset_read1 hmem).trans (Memory.unlisted_of_font_le hfont)⟩

end Sys2Proof.Machine
end

section
/-! Memory (spec/20_memory.md): what a read gives after a byte write, a word write and a bulk write, and what the
fetch reads after a store over the next instruction. -/

namespace Sys2Proof.Machine

/-! ## Addresses -/

/-- A byte read sees only the reduced address (R31). -/
theorem memRead1_congr (m : Memory) {a b : Nat} (h : ea a = ea b) : memRead1 m a = memRead1 m b := by
  rw [memRead1, memRead1, h]

/-- Addresses that name one cell have successors that name one cell, at the wrap included (R31). -/
theorem ea_succ_congr {a b : Nat} (h : ea a = ea b) : ea (a + 1) = ea (b + 1) :=
  Nat.ModEq.add_right 1 h

/-- A word read sees only the reduced address (R34). -/
theorem memRead2_congr (m : Memory) {a b : Nat} (h : ea a = ea b) : memRead2 m a = memRead2 m b := by
  rw [memRead2, memRead2, memRead1_congr m h, memRead1_congr m (ea_succ_congr h)]

/-- Two addresses less than a whole memory apart name different cells (R31). -/
theorem ea_add_ne {j k : Nat} (a : Nat) (hjk : j < k) (hk : k < j + memSize) : ea (a + k) ≠ ea (a + j) := by
  simp only [ea, memSize] at *
  omega

/-- The two bytes of a word are in different cells (R35). -/
theorem ea_succ_ne (a : Nat) : ea (a + 1) ≠ ea a :=
  ea_add_ne a Nat.zero_lt_one (by decide)

/-! ## Byte writes -/

/-- Settles O5, by the law of one cell. -/
theorem byteWriteThenRead : Obligations.ByteWriteThenRead := by
  intro m a v b
  rw [memRead1_memWrite1, apply_ite BitVec.toNat, BitVec.toNat_ofNat]
  rfl

/-! ## Word writes -/

/-- A word read is big-endian (R34). -/
theorem memRead2_toNat (m : Memory) (a : Nat) :
    (memRead2 m a).toNat = (memRead1 m a).toNat * 256 + (memRead1 m (a + 1)).toNat :=
  wordOfBytes_toNat _ _

/-- A word write puts the high byte at the address (R35). -/
theorem memRead1_memWrite2_high (m : Memory) (a v : Nat) :
    (memRead1 (memWrite2 m a v) a).toNat = v / 256 % 256 := by
  rw [memWrite2, memRead1_memWrite1, if_neg (ea_succ_ne a).symm, memRead1_memWrite1, if_pos rfl,
    BitVec.toNat_ofNat, Nat.shiftRight_eq_div_pow]

/-- A word write puts the low byte at the next address (R35). -/
theorem memRead1_memWrite2_low (m : Memory) (a v : Nat) :
    (memRead1 (memWrite2 m a v) (a + 1)).toNat = v % 256 := by
  rw [memWrite2, memRead1_memWrite1, if_pos rfl, BitVec.toNat_ofNat]

/-- A word write changes no other cell (R35). -/
theorem memRead1_memWrite2_outside (m : Memory) {a b : Nat} (v : Nat) (ha : ea b ≠ ea a)
    (hs : ea b ≠ ea (a + 1)) : memRead1 (memWrite2 m a v) b = memRead1 m b := by
  rw [memWrite2, memRead1_memWrite1, if_neg hs, memRead1_memWrite1, if_neg ha]

/-- A word read gives back the low 16 bits of what was written there (R34, R35). -/
theorem memRead2_memWrite2 (m : Memory) (a v : Nat) : (memRead2 (memWrite2 m a v) a).toNat = v % 65536 := by
  rw [memRead2_toNat, memRead1_memWrite2_high, memRead1_memWrite2_low]
  omega

/-- Settles O6, byte by byte. -/
theorem wordWriteThenRead : Obligations.WordWriteThenRead := fun m a v =>
  ⟨memRead2_toNat m a, memRead1_memWrite2_high m a v, memRead1_memWrite2_low m a v,
    fun _ ha hs => memRead1_memWrite2_outside m v ha hs, memRead2_memWrite2 m a v⟩

/-! ## Bulk writes -/

/-- After a bulk write, the cell of a byte that no later byte goes over holds that byte, masked: the writes before it
do not matter, and the ones after it go elsewhere (R36). -/
theorem memRead1_bulkWrite_last (m : Memory) (a : Nat) (bytes : List Nat) (k : Nat) (hk : k < bytes.length)
    (hlast : ∀ j, k < j → j < bytes.length → ea (a + j) ≠ ea (a + k)) :
    memRead1 (bulkWrite m a bytes) (a + k) = BitVec.ofNat 8 bytes[k] := by
  induction bytes generalizing m a k with
  | nil => exact absurd hk (Nat.not_lt_zero k)
  | cons v rest ih =>
    have shift : ∀ j, a + 1 + j = a + (j + 1) := by omega
    cases k with
    | zero =>
      have hout : ∀ j, j < rest.length → ea (a + 0) ≠ ea (a + 1 + j) := fun j hj =>
        shift j ▸ (hlast (j + 1) j.succ_pos (Nat.succ_lt_succ hj)).symm
      rw [bulkWrite, memRead1_bulkWrite_outside _ _ _ _ hout, memRead1_memWrite1, Nat.add_zero,
        if_pos rfl, List.getElem_cons_zero]
    | succ k =>
      rw [bulkWrite, ← shift k, List.getElem_cons_succ]
      refine ih _ _ k (Nat.lt_of_succ_lt_succ hk) fun j hkj hj => ?_
      rw [shift, shift]
      exact hlast (j + 1) (Nat.succ_lt_succ hkj) (Nat.succ_lt_succ hj)

/-- Settles O7. -/
theorem bulkWriteLastByteWins : Obligations.BulkWriteLastByteWins := by
  intro m a bytes
  refine ⟨fun k hk hlast => ?_, fun b => memRead1_bulkWrite_outside m a b bytes⟩
  rw [memRead1_bulkWrite_last m a bytes k hk hlast, BitVec.toNat_ofNat]

/-- A bulk write no longer than memory goes over none of its own bytes (R36). -/
theorem memRead1_bulkWrite_of_length_le (m : Memory) (a : Nat) {bytes : List Nat} (hlen : bytes.length ≤ memSize)
    {k : Nat} (hk : k < bytes.length) : memRead1 (bulkWrite m a bytes) (a + k) = BitVec.ofNat 8 bytes[k] :=
  memRead1_bulkWrite_last m a bytes k hk fun _ hkj hj => ea_add_ne a hkj (by omega)

/-! ## Storing registers -/

/-- LD [I],Vx replaces memory by a bulk write of the registers at `I`, and nothing else (R109). -/
theorem exec_ldMemVx (x : Reg) (s : State) :
    exec (.ldMemVx x) s = .next (s.setMem (bulkWrite s.mem s.dataBase (s.regBytes x))) := rfl

/-- After a store of `V[0]` to `V[x]`, each of them is read back at its own offset (R109). -/
theorem memRead1_bulkWrite_regBytes (m : Memory) (a : Nat) (s : State) {x r : Reg} (h : r.toNat ≤ x.toNat) :
    memRead1 (bulkWrite m a (s.regBytes x)) (a + r.toNat) = s.getV r := by
  have hr : r.toNat < (s.regBytes x).length := by rw [State.regBytes_length]; omega
  have hlen : (s.regBytes x).length ≤ memSize := by rw [State.regBytes_length, memSize]; omega
  rw [memRead1_bulkWrite_of_length_le m a hlen hr, State.regBytes_getElem]
  simp

/-- After a store of at least two registers, the word at its address is `V[0]` followed by `V[1]` (R109, R34). -/
theorem memRead2_bulkWrite_regBytes (m : Memory) (a : Nat) (s : State) {x : Reg} (hx : 1 ≤ x.toNat) :
    memRead2 (bulkWrite m a (s.regBytes x)) a = wordOfBytes (s.getV 0) (s.getV 1) :=
  congrArg₂ wordOfBytes (memRead1_bulkWrite_regBytes m a s (r := 0) x.toNat.zero_le)
    (memRead1_bulkWrite_regBytes m a s (r := 1) hx)

/-- Settles O33: the fetch reads the cells at `I`, which hold the first two registers stored. -/
theorem storeSeenByNextFetch : Obligations.StoreSeenByNextFetch := by
  intro x s hx hpc
  refine ⟨_, exec_ldMemVx x s, rfl, ?_⟩
  rw [State.fetchWord, State.setMem_mem, State.setMem_pc, memRead2_congr _ hpc.symm,
    memRead2_bulkWrite_regBytes s.mem s.dataBase s hx, wordOfBytes_toNat]

end Sys2Proof.Machine
end

section
/-! Encoding (spec/30_encoding.md): decoding undoes encoding, a recognised word loses no bit, and the words that
match no row are those of R60's table. -/

namespace Sys2Proof

/-! ## Decoding an encoding -/

/-- SYS at any other address than 0x0E0 and 0x0EE is neither of the whole words CLS and RET (R55). -/
theorem decodeWord_encode_sys {nnn : Addr} (h : (Instr.sys nnn).wf = true) :
    decodeWord (encode (.sys nnn)) = .instr (.sys nnn) := by
  obtain ⟨hcls, hret⟩ : nnn ≠ 0x0E0 ∧ nnn ≠ 0x0EE := by simpa [Instr.wf] using h
  have address : ∀ w : Word, (0x0#4 ++ nnn : Word) = w → nnn = nnnField w := fun w e => by simp [← e]
  have hcls' : (0x0#4 ++ nnn : Word) ≠ 0x00E0 := fun e => hcls (address _ e)
  have hret' : (0x0#4 ++ nnn : Word) ≠ 0x00EE := fun e => hret (address _ e)
  simp only [encode, decodeWord, opField_nnn, BitVec.toNat_ofNat, decodeClass0, if_neg hcls', if_neg hret',
    nnnField_nnn]

/-- Settles O1: the dispatch reads back the fields of the pattern the word was built from (R51), class by class. -/
theorem decodeOfEncode : Obligations.DecodeOfEncode := by
  intro i h
  cases i with
  | sys nnn => exact decodeWord_encode_sys h
  | cls | ret => decide
  | seReg => simp [encode, decodeWord, decodeClass5]
  | ldReg | orReg | andReg | xorReg | addReg | subReg | shr | subnReg | shl =>
    simp [encode, decodeWord, decodeClass8]
  | sneReg => simp [encode, decodeWord, decodeClass9]
  | skp | sknp => simp [encode, decodeWord, decodeClassE]
  | ldVxDT | ldVxK | ldDTVx | ldSTVx | addIVx | ldFVx | ldBVx | ldMemVx | ldVxMem =>
    simp [encode, decodeWord, decodeClassF]
  | jp | call | seByte | sneByte | ldByte | addByte | ldI | jpV0 | rnd | drw => simp [encode, decodeWord]

/-! ## Encoding a decoding

A word is the pattern of its fields, so a pattern whose fixed fields hold what the dispatch found is the word. -/

theorem nnn_eq_word {w : Word} {o : BitVec 4} (ho : (opField w).toNat = o.toNat) : (o ++ nnnField w : Word) = w := by
  rw [← BitVec.eq_of_toNat_eq ho, word_eq_nnn]

theorem xkk_eq_word {w : Word} {o : BitVec 4} {k : Byte} (ho : (opField w).toNat = o.toNat)
    (hk : (kkField w).toNat = k.toNat) : (o ++ xField w ++ k : Word) = w := by
  rw [← BitVec.eq_of_toNat_eq ho, ← BitVec.eq_of_toNat_eq hk, word_eq_xkk]

theorem xyn_eq_word {w : Word} {o n : BitVec 4} (ho : (opField w).toNat = o.toNat)
    (hn : (nField w).toNat = n.toNat) : (o ++ xField w ++ yField w ++ n : Word) = w := by
  rw [← BitVec.eq_of_toNat_eq ho, ← BitVec.eq_of_toNat_eq hn, word_eq_xyn]

/-- The word is the encoding of the well-formed instruction it decodes to, if it decodes to one. -/
def EncodesBack (w : Word) (d : Decoded) : Prop := ∀ i, d = .instr i → encode i = w ∧ i.wf = true

theorem encodesBack_instr {w : Word} {i : Instr} (he : encode i = w) (hw : i.wf = true) :
    EncodesBack w (.instr i) := by
  rintro _ ⟨⟩
  exact ⟨he, hw⟩

theorem encodesBack_unrecognised (w v : Word) : EncodesBack w (.unrecognised v) := nofun

/-- Class 0: what is left to SYS is neither CLS nor RET (R55). -/
theorem decodeClass0_encodesBack {w : Word} (ho : (opField w).toNat = 0x0) : EncodesBack w (decodeClass0 w) := by
  have back : encode (.sys (nnnField w)) = w := nnn_eq_word ho
  unfold decodeClass0
  split
  next hcls => exact encodesBack_instr hcls.symm rfl
  next hcls =>
    split
    next hret => exact encodesBack_instr hret.symm rfl
    next hret =>
      refine encodesBack_instr back ?_
      have hcls' : nnnField w ≠ 0x0E0 := fun e => hcls (by rw [← back, e]; rfl)
      have hret' : nnnField w ≠ 0x0EE := fun e => hret (by rw [← back, e]; rfl)
      simp only [Instr.wf, bne_iff_ne.mpr hcls', bne_iff_ne.mpr hret', Bool.and_self]

/-- A class whose one row has the low nibble 0 (R56). -/
theorem lowNibbleZero_encodesBack {w : Word} {i : Instr} (he : (nField w).toNat = 0 → encode i = w)
    (hw : i.wf = true) : EncodesBack w (if nField w = 0 then .instr i else .unrecognised w) := by
  split
  next hn => exact encodesBack_instr (he (congrArg BitVec.toNat hn)) hw
  next => exact encodesBack_unrecognised w w

theorem decodeClass5_encodesBack {w : Word} (ho : (opField w).toNat = 0x5) : EncodesBack w (decodeClass5 w) :=
  lowNibbleZero_encodesBack (fun hn => xyn_eq_word ho hn) rfl

theorem decodeClass9_encodesBack {w : Word} (ho : (opField w).toNat = 0x9) : EncodesBack w (decodeClass9 w) :=
  lowNibbleZero_encodesBack (fun hn => xyn_eq_word ho hn) rfl

theorem decodeClass8_encodesBack {w : Word} (ho : (opField w).toNat = 0x8) : EncodesBack w (decodeClass8 w) := by
  unfold decodeClass8
  split
  case h_10 => exact encodesBack_unrecognised w w
  all_goals next hn => exact encodesBack_instr (xyn_eq_word ho hn) rfl

theorem decodeClassE_encodesBack {w : Word} (ho : (opField w).toNat = 0xE) : EncodesBack w (decodeClassE w) := by
  unfold decodeClassE
  split
  case h_3 => exact encodesBack_unrecognised w w
  all_goals next hk => exact encodesBack_instr (xkk_eq_word ho hk) rfl

theorem decodeClassF_encodesBack {w : Word} (ho : (opField w).toNat = 0xF) : EncodesBack w (decodeClassF w) := by
  unfold decodeClassF
  split
  case h_10 => exact encodesBack_unrecognised w w
  all_goals next hk => exact encodesBack_instr (xkk_eq_word ho hk) rfl

/-- The dispatch of R54: a class of one row keeps every field, the six others have a lemma each. -/
theorem decodeWord_encodesBack (w : Word) : EncodesBack w (decodeWord w) := by
  unfold decodeWord
  split
  next ho => exact decodeClass0_encodesBack ho
  next ho => exact encodesBack_instr (nnn_eq_word ho) rfl
  next ho => exact encodesBack_instr (nnn_eq_word ho) rfl
  next ho => exact encodesBack_instr (xkk_eq_word ho rfl) rfl
  next ho => exact encodesBack_instr (xkk_eq_word ho rfl) rfl
  next ho => exact decodeClass5_encodesBack ho
  next ho => exact encodesBack_instr (xkk_eq_word ho rfl) rfl
  next ho => exact encodesBack_instr (xkk_eq_word ho rfl) rfl
  next ho => exact decodeClass8_encodesBack ho
  next ho => exact decodeClass9_encodesBack ho
  next ho => exact encodesBack_instr (nnn_eq_word ho) rfl
  next ho => exact encodesBack_instr (nnn_eq_word ho) rfl
  next ho => exact encodesBack_instr (xkk_eq_word ho rfl) rfl
  next ho => exact encodesBack_instr (xyn_eq_word ho rfl) rfl
  next ho => exact decodeClassE_encodesBack ho
  next ho => exact decodeClassF_encodesBack ho
  next => exact encodesBack_unrecognised w w

/-- Settles O2, class by class of the dispatch. -/
theorem encodeOfDecode : Obligations.EncodeOfDecode := decodeWord_encodesBack

/-! ## The words that match no row -/

theorem decodeClass0_ne_unrecognised (w v : Word) : decodeClass0 w ≠ .unrecognised v := by
  unfold decodeClass0
  split
  · nofun
  · split <;> nofun

theorem nField_eq_zero_iff (w : Word) : nField w = 0 ↔ w.toNat % 16 = 0 := by
  rw [← nField_toNat, BitVec.toNat_eq]
  rfl

/-- A class whose one row has the low nibble 0 (R56). -/
theorem lowNibbleZero_eq_unrecognised_iff (w v : Word) (i : Instr) :
    (if nField w = 0 then Decoded.instr i else .unrecognised w) = .unrecognised v ↔
      w = v ∧ w.toNat % 16 ≠ 0 := by
  rw [Ne, ← nField_eq_zero_iff]
  split
  next hn => simp [hn]
  next hn => simpa using fun _ => hn

theorem decodeClass5_eq_unrecognised_iff (w v : Word) :
    decodeClass5 w = .unrecognised v ↔ w = v ∧ w.toNat % 16 ≠ 0 :=
  lowNibbleZero_eq_unrecognised_iff w v _

theorem decodeClass9_eq_unrecognised_iff (w v : Word) :
    decodeClass9 w = .unrecognised v ↔ w = v ∧ w.toNat % 16 ≠ 0 :=
  lowNibbleZero_eq_unrecognised_iff w v _

theorem decodeClass8_eq_unrecognised_iff (w v : Word) :
    decodeClass8 w = .unrecognised v ↔ w = v ∧ w.toNat % 16 ∈ [0x8, 0x9, 0xA, 0xB, 0xC, 0xD, 0xF] := by
  rw [← nField_toNat]
  unfold decodeClass8
  split
  case h_10 =>
    have hlt := (nField w).isLt
    simp only [imp_false] at *
    have hrow : (nField w).toNat ∈ [0x8, 0x9, 0xA, 0xB, 0xC, 0xD, 0xF] := by
      simp only [List.mem_cons, List.not_mem_nil, or_false]
      omega
    rw [Decoded.unrecognised.injEq, and_iff_left hrow]
  all_goals next hn => simp [hn]

theorem decodeClassE_eq_unrecognised_iff (w v : Word) :
    decodeClassE w = .unrecognised v ↔ w = v ∧ w.toNat % 256 ∉ [0x9E, 0xA1] := by
  rw [← kkField_toNat]
  unfold decodeClassE
  split
  case h_3 =>
    simp only [imp_false] at *
    simp [*]
  all_goals next hk => simp [hk]

theorem decodeClassF_eq_unrecognised_iff (w v : Word) :
    decodeClassF w = .unrecognised v ↔
      w = v ∧ w.toNat % 256 ∉ [0x07, 0x0A, 0x15, 0x18, 0x1E, 0x29, 0x33, 0x55, 0x65] := by
  rw [← kkField_toNat]
  unfold decodeClassF
  split
  case h_10 =>
    simp only [imp_false] at *
    simp [*]
  all_goals next hk => simp [hk]

/-- The word is in R60's table. -/
def MatchesNoRow (w : Word) : Prop :=
  (w.toNat / 0x1000 = 0x5 ∧ w.toNat % 16 ≠ 0) ∨
  (w.toNat / 0x1000 = 0x8 ∧ w.toNat % 16 ∈ [0x8, 0x9, 0xA, 0xB, 0xC, 0xD, 0xF]) ∨
  (w.toNat / 0x1000 = 0x9 ∧ w.toNat % 16 ≠ 0) ∨
  (w.toNat / 0x1000 = 0xE ∧ w.toNat % 256 ∉ [0x9E, 0xA1]) ∨
  (w.toNat / 0x1000 = 0xF ∧ w.toNat % 256 ∉ [0x07, 0x0A, 0x15, 0x18, 0x1E, 0x29, 0x33, 0x55, 0x65])

/-- The dispatch of R54: a class of one row, or class 0, recognises every word. -/
theorem decodeWord_eq_unrecognised_iff (w v : Word) :
    decodeWord w = .unrecognised v ↔ w = v ∧ MatchesNoRow w := by
  unfold decodeWord MatchesNoRow
  rw [← opField_toNat]
  split
  next ho => simp [ho, decodeClass0_ne_unrecognised]
  case h_6 ho => rw [decodeClass5_eq_unrecognised_iff]; simp [ho]
  case h_9 ho => rw [decodeClass8_eq_unrecognised_iff]; simp [ho]
  case h_10 ho => rw [decodeClass9_eq_unrecognised_iff]; simp [ho]
  case h_15 ho => rw [decodeClassE_eq_unrecognised_iff]; simp [ho]
  case h_16 ho => rw [decodeClassF_eq_unrecognised_iff]; simp [ho]
  case h_17 =>
    have hlt := (opField w).isLt
    simp only [imp_false] at *
    omega
  all_goals next ho => simp [ho]

/-- Settles O3: a word that decodes to no row hands on itself, and is in R60's table. -/
theorem unrecognisedWordsExact : Obligations.UnrecognisedWordsExact := fun w =>
  ⟨fun v h => ((decodeWord_eq_unrecognised_iff w v).mp h).1.symm,
    (decodeWord_eq_unrecognised_iff w w).trans (and_iff_right rfl)⟩

end Sys2Proof
end

section
/-! The step cycle (spec/40_step_cycle.md): which word runs an instruction, which raises UnrecognizedOpcode, the call
that comes back, and the jump that goes nowhere. -/

namespace Sys2Proof

/-! ## Admission -/

/-- A word that decodes to an implemented instruction runs it (R63, R73). -/
theorem admitted_of_implements {c : Config} {w : Word} {i : Instr} (hd : decodeWord w = .instr i)
    (hi : c.implements i.mnemonic = true) : admitted c w = some i := by
  simp only [admitted, hd, if_pos hi]

/-- No instruction runs exactly where the word matches no row or a row that is not implemented (R74). -/
theorem admitted_eq_none_iff (c : Config) (w : Word) :
    admitted c w = none ↔
      (∃ v, decodeWord w = .unrecognised v) ∨ (∃ i, decodeWord w = .instr i ∧ c.implements i.mnemonic = false) := by
  unfold admitted
  cases decodeWord w with
  | instr i => simp
  | unrecognised v => simp

end Sys2Proof

namespace Sys2Proof.Machine

/-! ## The fetch -/

/-- The bytes at `pc` decode to what the fetched word decodes to (R71, R72). -/
theorem decodeBytes_fetch (s : State) :
    decodeBytes [s.read1 s.pc.toNat, s.read1 (s.pc.toNat + 1)] = .word (decodeWord s.fetchWord) [] := rfl

/-- The fetch increment moves `pc` on by 2 modulo 65536 (R71). -/
theorem State.advancePc_pc_toNat (s : State) : s.advancePc.pc.toNat = (s.pc.toNat + 2) % 65536 :=
  pc_add_two_toNat s.pc

/-- The fetch increment writes `pc` alone, wherever `pc` may be written (R71). -/
theorem State.advancePc_writesOnly (s : State) {ps : List Part} (hp : .pc ∈ ps) : WritesOnly [] ps s s.advancePc :=
  WritesOnly.refl.setPc hp

/-- Settles O42: the decoded instruction is the one admitted, and the increment writes `pc` alone. -/
theorem stepRunsDecodedInstruction : Obligations.StepRunsDecodedInstruction := by
  intro s i hf hd hi
  rw [decodeBytes_fetch, DecodedBytes.word.injEq] at hd
  have increment : WritesOnly [] [.pc] s s.advancePc := s.advancePc_writesOnly (by simp)
  exact ⟨step_of_admitted hf (admitted_of_implements hd.1 hi), s.advancePc_pc_toNat, increment.regs, increment.frame⟩

/-- Settles O43: with no instruction admitted the step is the increment and then the raise. -/
theorem stepRaisesUnrecognizedOpcode : Obligations.StepRaisesUnrecognizedOpcode := by
  intro s hf hw
  have written : WritesOnly [] [.pc, .fault] s (s.advancePc.raise (.unrecognizedOpcode s.fetchWord)) :=
    (s.advancePc_writesOnly (by simp)).raise (by simp)
  exact ⟨_, step_of_not_admitted hf ((admitted_eq_none_iff _ _).mpr hw), rfl, s.advancePc_pc_toNat, written.regs,
    written.frame⟩

/-! ## CALL and then RET -/

/-- CALL with room on the stack pushes `pc` and jumps (R83). -/
theorem State.callTo_of_not_full {s : State} (h : s.cfg.stackDepth ≠ .entries s.stack.length) (w : Word) :
    s.callTo w = (s.setStack (s.stack ++ [s.pc])).setPc w := by
  obtain ⟨hfull, -⟩ | ⟨-, e⟩ := s.callTo_cases w
  · exact absurd hfull h
  · exact e

/-- RET takes the newest entry off the stack and into `pc` (R81). -/
theorem State.returnFromCall_of_append {s : State} {l : List Word} {w : Word} (h : s.stack = l ++ [w]) :
    s.returnFromCall = (s.setStack l).setPc w := by
  simp [State.returnFromCall, h]

/-- CALL with room on the stack, the fetch increment of RET, and RET give back the whole state (R75 (b)). -/
theorem State.returnFromCall_advancePc_callTo {s : State} (h : s.cfg.stackDepth ≠ .entries s.stack.length)
    (w : Word) : (s.callTo w).advancePc.returnFromCall = s := by
  have hstack : (s.callTo w).advancePc.stack = s.stack ++ [s.pc] := by rw [State.callTo_of_not_full h]; rfl
  rw [State.returnFromCall_of_append hstack, State.callTo_of_not_full h]
  rfl

/-- Settles O12: the state that comes back is the one that called. -/
theorem callThenRetReturns : Obligations.CallThenRetReturns := by
  intro nnn s h
  have back : exec .ret (s.callTo (immAddr nnn)).advancePc = .next s :=
    congrArg _ (State.returnFromCall_advancePc_callTo h _)
  have same : WritesOnly [] [] s s := .refl
  exact ⟨_, rfl, s, back, rfl, rfl, same.regs, same.frame⟩

/-! ## A jump to itself -/

/-- JP sets `pc` to its address and nothing else (R82). -/
theorem exec_jp (nnn : Addr) (s : State) : exec (.jp nnn) s = .next (s.setPc (immAddr nnn)) := rfl

/-- An address below 4096 fits the 12 bits of JP (R53). -/
theorem immAddr_setWidth {w : Word} (h : w.toNat < 4096) : immAddr (w.setWidth 12) = w := by
  apply BitVec.eq_of_toNat_eq
  simp only [immAddr, BitVec.toNat_setWidth]
  omega

/-- The word 0x1000 plus an address below 4096 is a JP to it (R54). -/
theorem decodeWord_jump {w a : Word} (ha : a.toNat < 4096) (hw : w.toNat = 0x1000 + a.toNat) :
    decodeWord w = .instr (.jp (a.setWidth 12)) := by
  have encoded : w = encode (.jp (a.setWidth 12)) := by
    apply BitVec.eq_of_toNat_eq
    rw [hw, encode, pattern_nnn_toNat, BitVec.toNat_setWidth, Nat.mod_eq_of_lt ha]
    rfl
  rw [encoded]
  exact decodeOfEncode _ rfl

/-- Settles O47: the jump puts `pc` back where the fetch increment took it from. -/
theorem jumpToSelfIsFixedPoint : Obligations.JumpToSelfIsFixedPoint := by
  intro s hf hjp hpc hw
  rw [step_of_admitted hf (admitted_of_implements (decodeWord_jump hpc hw) hjp), exec_jp, immAddr_setWidth hpc]
  rfl

end Sys2Proof.Machine
end

section
/-! Control transfer (spec/41_control_transfer.md): SYS, RET, the jumps, CALL and the skips, each with its word, what
it writes, and the state a fault leaves. -/

namespace Sys2Proof.Machine

/-- A well-formed instruction is encoded by its own word (R51 to R59). -/
theorem encodedAs_encode {i : Instr} (h : i.wf = true) : EncodedAs i (encode i) :=
  ⟨rfl, decodeOfEncode i h⟩

/-! ## SYS -/

/-- SYS is well formed at every address but those of CLS and RET (R55). -/
theorem wf_sys {nnn : Addr} (hcls : nnn ≠ 0x0E0) (hret : nnn ≠ 0x0EE) : (Instr.sys nnn).wf = true := by
  simpa [Instr.wf] using And.intro hcls hret

/-- SYS leaves the state as it is (R80). -/
theorem exec_sys (nnn : Addr) (s : State) : exec (.sys nnn) s = .next s := rfl

/-- Settles O8: the next state is the state itself. -/
theorem sysDoesNothing : Obligations.SysDoesNothing := by
  intro nnn s
  have same : WritesOnly [] [] s s := .refl
  exact ⟨fun hcls hret => encodedAs_encode (wf_sys hcls hret), s, exec_sys nnn s, same.regs, same.frame⟩

/-! ## What the jumps and the faults leave -/

/-- A raised fault sets the latch and changes nothing else (R136). -/
theorem State.raise_latched (s : State) (f : Fault) : Latched f s (s.raise f) := by
  have written : WritesOnly [] [.fault] s (s.raise f) := WritesOnly.refl.raise (by simp)
  exact ⟨rfl, written.regs, written.frame⟩

theorem State.setPc_writesOnly (s : State) (w : Word) : WritesOnly [] [.pc] s (s.setPc w) :=
  WritesOnly.refl.setPc (by simp)

/-- CALL and RET replace the stack and set `pc`. -/
theorem State.setStack_setPc_writesOnly (s : State) (l : List Word) (w : Word) :
    WritesOnly [] [.pc, .stack] s ((s.setStack l).setPc w) :=
  (WritesOnly.refl.setStack (by simp)).setPc (by simp)

/-! ## RET and CALL -/

theorem exec_ret (s : State) : exec .ret s = .next s.returnFromCall := rfl

theorem exec_call (nnn : Addr) (s : State) : exec (.call nnn) s = .next (s.callTo (immAddr nnn)) := rfl

/-- RET on an empty stack raises StackUnderflow (R81, R132). -/
theorem State.returnFromCall_of_nil {s : State} (h : s.stack = []) :
    s.returnFromCall = s.raise .stackUnderflow := by
  obtain ⟨-, e⟩ | ⟨l, w, hl, -⟩ := s.returnFromCall_cases
  · exact e
  · simp [h] at hl

/-- CALL on a full stack raises StackOverflow (R83, R133). -/
theorem State.callTo_of_full {s : State} (h : s.cfg.stackDepth = .entries s.stack.length) (w : Word) :
    s.callTo w = s.raise .stackOverflow := by
  obtain ⟨-, e⟩ | ⟨hroom, -⟩ := s.callTo_cases w
  · exact e
  · exact absurd h hroom

/-- The address field fits `pc` (R53). -/
theorem immAddr_toNat (nnn : Addr) : (immAddr nnn).toNat = nnn.toNat := by
  simp only [immAddr, BitVec.toNat_setWidth]
  omega

/-- Settles O9: RET on a stack with a newest entry, and on an empty one. -/
theorem retPopsOrUnderflows : Obligations.RetPopsOrUnderflows := by
  intro s
  refine ⟨encodedAs_encode rfl, fun l w hl => ?_, fun hnil => ?_⟩
  · have written := s.setStack_setPc_writesOnly l w
    rw [Runs, exec_ret, State.returnFromCall_of_append hl]
    exact ⟨_, rfl, rfl, rfl, written.regs, written.frame⟩
  · rw [Runs, exec_ret, State.returnFromCall_of_nil hnil]
    exact ⟨_, rfl, s.raise_latched _⟩

/-- Settles O11: CALL with room on the stack, and on a full one. -/
theorem callPushesOrOverflows : Obligations.CallPushesOrOverflows := by
  intro nnn s
  refine ⟨encodedAs_encode rfl, fun hroom => ?_, fun hfull => ?_⟩
  · have written := s.setStack_setPc_writesOnly (s.stack ++ [s.pc]) (immAddr nnn)
    rw [Runs, exec_call, State.callTo_of_not_full hroom]
    exact ⟨_, rfl, immAddr_toNat nnn, rfl, written.regs, written.frame⟩
  · rw [Runs, exec_call, State.callTo_of_full hfull]
    exact ⟨_, rfl, s.raise_latched _⟩

/-! ## The jumps -/

/-- Settles O10. -/
theorem jpSetsPc : Obligations.JpSetsPc := by
  intro nnn s
  have written := s.setPc_writesOnly (immAddr nnn)
  exact ⟨encodedAs_encode rfl, _, exec_jp nnn s, immAddr_toNat nnn, written.regs, written.frame⟩

theorem exec_jpV0 (nnn : Addr) (s : State) : exec (.jpV0 nnn) s = .next (s.setPc (s.v0Target nnn)) := rfl

/-- A byte and an address add up to at most 0x10FE (R88). -/
theorem byte_add_addr_le (b : Byte) (nnn : Addr) : b.toNat + nnn.toNat ≤ 0x10FE := by
  omega

/-- The target of JP V0 is the sum itself: it fits `pc` (R88). -/
theorem State.v0Target_toNat (s : State) (nnn : Addr) :
    (s.v0Target nnn).toNat = (s.getV 0).toNat + nnn.toNat := by
  have bound := byte_add_addr_le (s.getV 0) nnn
  rw [State.v0Target, BitVec.toNat_ofNat]
  omega

/-- Settles O13. -/
theorem jpV0AddsV0 : Obligations.JpV0AddsV0 := by
  intro nnn s
  have sum := s.v0Target_toNat nnn
  have written := s.setPc_writesOnly (s.v0Target nnn)
  exact ⟨encodedAs_encode rfl, _, exec_jpV0 nnn s, sum, sum.trans_le (byte_add_addr_le _ nnn), written.regs,
    written.frame⟩

/-! ## The skips -/

theorem State.skipIf_writesOnly (s : State) (c : Bool) : WritesOnly [] [.pc] s (s.skipIf c) :=
  WritesOnly.refl.skipIf (by simp)

/-- A skip moves `pc` on by 2 modulo 65536 where its condition holds (R75). -/
theorem State.skipIf_pc_toNat (s : State) (c : Bool) :
    (s.skipIf c).pc.toNat = if c then (s.pc.toNat + 2) % 65536 else s.pc.toNat := by
  cases c
  · rfl
  · exact s.advancePc_pc_toNat

/-- An instruction that skips where two bytes are equal (R84, R86). -/
theorem runs_skipIf_eq {i : Instr} {s : State} {a b : Byte} (h : exec i s = .next (s.skipIf (a == b))) :
    Runs i s (fun t => t.pc.toNat = (if a = b then (s.pc.toNat + 2) % 65536 else s.pc.toNat) ∧
      RegsSameBut [] s t ∧ Frame [.pc] s t) := by
  have written := s.skipIf_writesOnly (a == b)
  refine ⟨_, h, ?_, written.regs, written.frame⟩
  rw [State.skipIf_pc_toNat]
  simp only [beq_iff_eq]

/-- An instruction that skips where two bytes differ (R85, R87). -/
theorem runs_skipIf_ne {i : Instr} {s : State} {a b : Byte} (h : exec i s = .next (s.skipIf (a != b))) :
    Runs i s (fun t => t.pc.toNat = (if a = b then s.pc.toNat else (s.pc.toNat + 2) % 65536) ∧
      RegsSameBut [] s t ∧ Frame [.pc] s t) := by
  have written := s.skipIf_writesOnly (a != b)
  refine ⟨_, h, ?_, written.regs, written.frame⟩
  rw [State.skipIf_pc_toNat]
  simp only [bne_iff_ne, ite_not]

/-- Settles O14: SE and SNE compare the register with the byte and skip on equal, on not equal. -/
theorem skipOnByte : Obligations.SkipOnByte := fun _ _ _ =>
  ⟨encodedAs_encode rfl, encodedAs_encode rfl, runs_skipIf_eq rfl, runs_skipIf_ne rfl⟩

/-- Settles O15: SE and SNE compare the two registers and skip on equal, on not equal. -/
theorem skipOnRegister : Obligations.SkipOnRegister := fun _ _ _ =>
  ⟨encodedAs_encode rfl, encodedAs_encode rfl, runs_skipIf_eq rfl, runs_skipIf_ne rfl⟩

end Sys2Proof.Machine
end

section
/-! Register load, arithmetic, logic, shift and random instructions (spec/42_alu.md): the arithmetic of a byte and of
the flags, what the two orders of the result and the flag leave, and each instruction with its word and its writes. -/

namespace Sys2Proof.Machine

/-! ## Bytes (R90) -/

/-- A difference of bytes wraps modulo 256. -/
theorem byte_sub_toNat (a b : Byte) : (a - b).toNat = (a.toNat + 256 - b.toNat) % 256 := by
  rw [BitVec.toNat_sub]
  omega

/-- One position right halves a byte. -/
theorem byte_shiftRight_one_toNat (a : Byte) : (a >>> 1).toNat = a.toNat / 2 := by
  rw [BitVec.toNat_ushiftRight, Nat.shiftRight_one]

/-- One position left doubles a byte modulo 256. -/
theorem byte_shiftLeft_one_toNat (a : Byte) : (a <<< 1).toNat = 2 * a.toNat % 256 := by
  rw [BitVec.toNat_shiftLeft, Nat.shiftLeft_eq, Nat.pow_one, Nat.mul_comm]

/-- A masked byte has no bit outside the mask. -/
theorem byte_and_and_not (r kk : Byte) : r &&& kk &&& ~~~kk = 0 := by
  rw [BitVec.and_assoc, BitVec.and_not_self]
  exact BitVec.and_zero

/-! ## Flags (R11) -/

theorem flagByte_toNat (c : Bool) : (flagByte c).toNat = c.toNat := by
  cases c <;> rfl

theorem flagByte_decide_toNat (p : Prop) [Decidable p] : (flagByte (decide p)).toNat = if p then 1 else 0 := by
  rw [flagByte_toNat, Bool.toNat, Bool.cond_decide]

theorem carryFlag_toNat (a b : Byte) : (carryFlag a b).toNat = if 0xFF < a.toNat + b.toNat then 1 else 0 :=
  flagByte_decide_toNat _

theorem noBorrowFlag_toNat (a b : Byte) : (noBorrowFlag a b).toNat = if b.toNat ≤ a.toNat then 1 else 0 :=
  flagByte_decide_toNat _

/-- The bit SHR shifts out is the remainder of halving (R100). -/
theorem lowBitFlag_toNat (a : Byte) : (lowBitFlag a).toNat = a.toNat % 2 := by
  rw [lowBitFlag, flagByte_toNat, BitVec.getLsbD, Nat.toNat_testBit, Nat.pow_zero, Nat.div_one]

/-- The bit SHL shifts out is the carry of doubling (R102). -/
theorem highBitFlag_toNat (a : Byte) : (highBitFlag a).toNat = a.toNat / 128 := by
  rw [highBitFlag, flagByte_toNat, BitVec.getLsbD, Nat.toNat_testBit]
  omega

/-! ## The order of the writes (R91, U3) -/

section
variable {s : State} (x : Reg) (r f : Byte) (g h : Byte → Byte)

theorem State.writeDifference_of_flagLast (ho : s.cfg.vfOrder = .flagLast) :
    s.writeDifference x r f = s.resultThenFlag x r f := by
  rw [State.writeDifference, ho]

theorem State.writeDifference_of_asListed (ho : s.cfg.vfOrder = .asListed) :
    s.writeDifference x r f = s.flagThenResult x r f := by
  rw [State.writeDifference, ho]

theorem State.writeShift_of_flagLast (ho : s.cfg.vfOrder = .flagLast) :
    s.writeShift x g h = s.resultThenFlag x (g (s.getV x)) (h (s.getV x)) := by
  rw [State.writeShift, ho]

/-- As listed, SHR and SHL of `VF` shift the flag just written. -/
theorem State.writeShift_of_asListed (ho : s.cfg.vfOrder = .asListed) :
    s.writeShift x g h = s.flagThenResult x (g (if x = vf then h (s.getV x) else s.getV x)) (h (s.getV x)) := by
  rw [State.writeShift, ho]
  simp only [State.getV_setV]

end

/-! ## What an instruction leaves, by the writes it makes -/

section
variable {i : Instr} {s : State} {x : Reg} {r f : Byte}

/-- An instruction that writes one register leaves all else as it was. -/
theorem runs_setV {P : State → Prop} (h : exec i s = .next (s.setV x r)) (hP : P (s.setV x r)) :
    Runs i s (fun t => P t ∧ RegsSameBut [x] s t ∧ Frame [] s t) := by
  have written : WritesOnly [x] [] s (s.setV x r) := WritesOnly.refl.setV (by simp)
  exact ⟨_, h, hP, written.regs, written.frame⟩

/-- An instruction that computes `V[x]` bit by bit. -/
theorem runs_setV_bits {c : Nat → Bool} (h : exec i s = .next (s.setV x r)) (hr : ∀ k, r.getLsbD k = c k) :
    Runs i s (fun t => (∀ k, (t.getV x).getLsbD k = c k) ∧ RegsSameBut [x] s t ∧ Frame [] s t) :=
  runs_setV h fun k => (congrArg (·.getLsbD k) (State.getV_setV_same ..)).trans (hr k)

/-- With the flag written last the flag stays, and the result where `x` is not 15 (R91). -/
theorem runs_resultThenFlag {n m : Nat} (h : exec i s = .next (s.resultThenFlag x r f))
    (hr : r.toNat = n) (hf : f.toNat = m) :
    Runs i s (fun t => (x ≠ vf → (t.getV x).toNat = n) ∧ (t.getV vf).toNat = m ∧
      RegsSameBut [x, vf] s t ∧ Frame [] s t) := by
  have written : WritesOnly [x, vf] [] s (s.resultThenFlag x r f) :=
    WritesOnly.refl.resultThenFlag (by simp) (by simp)
  refine ⟨_, h, fun hx => ?_, ?_, written.regs, written.frame⟩
  · rw [State.getV_resultThenFlag, if_neg hx, if_pos rfl, hr]
  · rw [State.getV_resultThenFlag, if_pos rfl, hf]

/-- With the result written last the result stays, and the flag where `x` is not 15 (U3). -/
theorem runs_flagThenResult {n m : Nat} (h : exec i s = .next (s.flagThenResult x r f))
    (hr : r.toNat = n) (hf : f.toNat = m) :
    Runs i s (fun t => (t.getV x).toNat = n ∧ (x ≠ vf → (t.getV vf).toNat = m) ∧
      RegsSameBut [x, vf] s t ∧ Frame [] s t) := by
  have written : WritesOnly [x, vf] [] s (s.flagThenResult x r f) :=
    WritesOnly.refl.flagThenResult (by simp) (by simp)
  refine ⟨_, h, ?_, fun hx => ?_, written.regs, written.frame⟩
  · rw [State.getV_flagThenResult, if_pos rfl, hr]
  · rw [State.getV_flagThenResult, if_neg hx.symm, if_pos rfl, hf]

end

/-! ## Loads, the immediate add, logic -/

/-- Settles O16. -/
theorem ldByteLoads : Obligations.LdByteLoads := fun _ _ _ =>
  ⟨encodedAs_encode rfl, runs_setV rfl (State.getV_setV_same ..)⟩

/-- Settles O17: the sum of two bytes is modulo 256 (R90). -/
theorem addByteWraps : Obligations.AddByteWraps := fun x kk s =>
  ⟨encodedAs_encode rfl, runs_setV rfl <| by rw [State.getV_setV_same]; exact BitVec.toNat_add (s.getV x) kk⟩

/-- Settles O18. -/
theorem ldRegCopies : Obligations.LdRegCopies := fun _ _ _ =>
  ⟨encodedAs_encode rfl, runs_setV rfl (State.getV_setV_same ..)⟩

/-- Settles O19, bit by bit. -/
theorem logicIsBitwise : Obligations.LogicIsBitwise := fun _ _ _ =>
  ⟨encodedAs_encode rfl, encodedAs_encode rfl, encodedAs_encode rfl,
    runs_setV_bits rfl fun _ => BitVec.getLsbD_or,
    runs_setV_bits rfl fun _ => BitVec.getLsbD_and,
    runs_setV_bits rfl fun _ => BitVec.getLsbD_xor⟩

/-! ## The flag-writing instructions, the flag written last -/

/-- ADD Vx,Vy leaves the sum and the carry, in both orders of the writes (R98, U3). -/
theorem runs_addReg (x y : Reg) (s : State) :
    Runs (.addReg x y) s (fun t =>
      (x ≠ vf → (t.getV x).toNat = ((s.getV x).toNat + (s.getV y).toNat) % 256) ∧
      (t.getV vf).toNat = (if 0xFF < (s.getV x).toNat + (s.getV y).toNat then 1 else 0) ∧
      RegsSameBut [x, vf] s t ∧ Frame [] s t) :=
  runs_resultThenFlag rfl (BitVec.toNat_add ..) (carryFlag_toNat ..)

/-- Settles O20. -/
theorem addRegSumAndCarry : Obligations.AddRegSumAndCarry := fun x y s =>
  ⟨encodedAs_encode rfl, runs_addReg x y s⟩

/-- Settles O21. -/
theorem subDifferenceAndNoBorrow : Obligations.SubDifferenceAndNoBorrow := fun _ _ _ ho =>
  ⟨encodedAs_encode rfl, runs_resultThenFlag (congrArg _ (State.writeDifference_of_flagLast _ _ _ ho))
    (byte_sub_toNat ..) (noBorrowFlag_toNat ..)⟩

/-- Settles O22. -/
theorem subnDifferenceAndNoBorrow : Obligations.SubnDifferenceAndNoBorrow := fun _ _ _ ho =>
  ⟨encodedAs_encode rfl, runs_resultThenFlag (congrArg _ (State.writeDifference_of_flagLast _ _ _ ho))
    (byte_sub_toNat ..) (noBorrowFlag_toNat ..)⟩

/-- Settles O23. -/
theorem shrHalvesAndCarriesOut : Obligations.ShrHalvesAndCarriesOut := fun _ _ _ ho =>
  ⟨encodedAs_encode rfl, runs_resultThenFlag (congrArg _ (State.writeShift_of_flagLast _ _ _ ho))
    (byte_shiftRight_one_toNat _) (lowBitFlag_toNat _)⟩

/-- Settles O24. -/
theorem shlDoublesAndCarriesOut : Obligations.ShlDoublesAndCarriesOut := fun _ _ _ ho =>
  ⟨encodedAs_encode rfl, runs_resultThenFlag (congrArg _ (State.writeShift_of_flagLast _ _ _ ho))
    (byte_shiftLeft_one_toNat _) (highBitFlag_toNat _)⟩

/-! ## The flag-writing instructions, the writes as listed -/

/-- SHR of `VF` as listed shifts the flag, which is at most 1, and leaves 0 (U3). -/
theorem shr_asListed_toNat (c : Prop) [Decidable c] (a : Byte) :
    ((if c then lowBitFlag a else a) >>> 1).toNat = if c then 0 else a.toNat / 2 := by
  rw [byte_shiftRight_one_toNat]
  split
  · rw [lowBitFlag_toNat]
    omega
  · rfl

/-- SHL of `VF` as listed shifts the flag, and leaves it doubled (U3). -/
theorem shl_asListed_toNat (c : Prop) [Decidable c] (a : Byte) :
    ((if c then highBitFlag a else a) <<< 1).toNat = if c then 2 * (a.toNat / 128) else 2 * a.toNat % 256 := by
  rw [byte_shiftLeft_one_toNat]
  split
  · rw [highBitFlag_toNat]
    omega
  · rfl

/-- Settles O25: ADD writes the flag last in either order, the others the result. -/
theorem asListedOrderOfWrites : Obligations.AsListedOrderOfWrites := by
  intro x y s ho
  refine ⟨runs_addReg x y s, ?sub, ?subn, ?shr, ?shl⟩
  case sub | subn =>
    exact runs_flagThenResult (congrArg _ (State.writeDifference_of_asListed _ _ _ ho))
      (byte_sub_toNat ..) (noBorrowFlag_toNat ..)
  case shr =>
    exact runs_flagThenResult (congrArg _ (State.writeShift_of_asListed _ _ _ ho))
      (shr_asListed_toNat ..) (lowBitFlag_toNat _)
  case shl =>
    exact runs_flagThenResult (congrArg _ (State.writeShift_of_asListed _ _ _ ho))
      (shl_asListed_toNat ..) (highBitFlag_toNat _)

/-! ## The random byte -/

theorem exec_rnd (x : Reg) (kk : Byte) (s : State) :
    exec (.rnd x kk) s = .next (s.drewRandom.setV x (s.randomByte &&& kk)) := rfl

/-- A skip leaves the input side alone. -/
theorem State.skipIf_inputs (s : State) (c : Bool) : (s.skipIf c).inputs = s.inputs :=
  (s.skipIf_writesOnly c).inputs (by simp)

/-- Every instruction but RND leaves the input side alone or takes one key sample from it (R103, R148). -/
theorem exec_inputs {i : Instr} (hi : ∀ (r : Reg) (b : Byte), i ≠ .rnd r b) (s : State) :
    Runs i s (fun t => t.inputs = s.inputs ∨ t.inputs = s.inputs.afterKeys) := by
  cases i with
  | rnd x kk => exact absurd rfl (hi x kk)
  | skp | sknp => exact ⟨_, rfl, .inr (State.skipIf_inputs ..)⟩
  | ldVxK =>
    refine ⟨_, rfl, .inr ?_⟩
    split <;> rfl
  | _ =>
    obtain ⟨t, ht, written⟩ := exec_writesOnly _ s
    exact ⟨t, ht, .inl (written.inputs (by simp [partsOf]))⟩

/-- Settles O26: RND draws once and masks, and what the others do to the input side draws no random byte. -/
theorem rndMasksOneDraw : Obligations.RndMasksOneDraw := by
  intro x kk s
  refine ⟨encodedAs_encode rfl, ?_, fun i hi => ?_⟩
  · have written : WritesOnly [x] [.inputs] s (s.drewRandom.setV x (s.randomByte &&& kk)) :=
      (WritesOnly.refl.setInputs (by simp)).setV (by simp)
    refine ⟨_, exec_rnd x kk s, State.getV_setV_same .., ?_, rfl, rfl, rfl, written.regs, written.frame⟩
    rw [State.getV_setV_same, byte_and_and_not]
  · obtain ⟨t, ht, same | sampled⟩ := exec_inputs hi s
    · exact ⟨t, ht, by rw [same], by rw [same]⟩
    · exact ⟨t, ht, by rw [sampled, Inputs.afterKeys], by rw [sampled, Inputs.afterKeys]⟩

end Sys2Proof.Machine
end

section
/-! Index register and memory instructions (spec/43_index_memory.md): what is written into `I`, the decimal digits,
and the register transfers, each instruction with its word and what it leaves alone. -/

namespace Sys2Proof.Machine

/-! ## Writes of `I` -/

/-- An instruction that writes `I` leaves all else as it was, `VF` among it. -/
theorem runs_setI {i : Instr} {s : State} {w : Word} {n : Nat} (h : exec i s = .next (s.setI w)) (hw : w.toNat = n) :
    Runs i s (fun t => t.i.toNat = n ∧ RegsSameBut [] s t ∧ Frame [.i] s t) := by
  have written : WritesOnly [] [.i] s (s.setI w) := WritesOnly.refl.setI (by simp)
  exact ⟨_, h, hw, written.regs, written.frame⟩

/-- Settles O27. -/
theorem ldIZeroExtends : Obligations.LdIZeroExtends := fun nnn _ =>
  ⟨encodedAs_encode rfl, runs_setI rfl (immAddr_toNat nnn)⟩

/-- The sum of `I` and a byte, which wraps modulo 65536 (R106). -/
theorem State.indexSum_toNat (s : State) (x : Reg) :
    (s.indexSum x).toNat = (s.i.toNat + (s.getV x).toNat) % 65536 := by
  rw [State.indexSum, BitVec.toNat_add, BitVec.toNat_setWidth_of_le (by decide)]

/-- Settles O28. -/
theorem addIWrapsAt16Bits : Obligations.AddIWrapsAt16Bits := fun x s =>
  ⟨encodedAs_encode rfl, runs_setI rfl (s.indexSum_toNat x)⟩

/-- The address of a glyph is not reduced where the last glyph starts within 16 bits: `FONT_BASE` is 0, and an index
is at most 15 (R107). -/
theorem State.glyphAddr_toNat {s : State} (h : s.cfg.glyphBytes ≤ 4369) (x : Reg) :
    (s.glyphAddr x).toNat = s.cfg.glyphBytes * ((s.getV x).toNat % 16) := by
  have hidx : (s.getV x).toNat % 16 ≤ 15 := by omega
  have hmul : s.cfg.glyphBytes * ((s.getV x).toNat % 16) ≤ 4369 * 15 := Nat.mul_le_mul h hidx
  rw [State.glyphAddr, State.nibbleIndex, fontBase, Nat.zero_add, BitVec.toNat_ofNat]
  omega

/-- Settles O29. -/
theorem ldFGlyphAddress : Obligations.LdFGlyphAddress := fun x _ h =>
  ⟨encodedAs_encode rfl, runs_setI rfl (State.glyphAddr_toNat h x)⟩

/-! ## Stores -/

/-- A bulk write changes no byte outside the ones it writes (R36). -/
theorem State.setMem_bulkWrite_memSameOutside (s : State) (a : Nat) (bytes : List Nat) :
    MemSameOutside a bytes.length s (s.setMem (bulkWrite s.mem a bytes)) :=
  fun b => memRead1_bulkWrite_outside s.mem a b bytes

/-- A decimal digit is below 10, the hundreds of a byte among them (R108). -/
theorem bcdDigits_lt_ten (b : Byte) : ∀ d ∈ bcdDigits b, d < 10 := by
  simp only [bcdDigits, List.forall_mem_cons]
  refine ⟨?hundreds, ?tens, ?ones, List.forall_mem_nil _⟩ <;> omega

/-- After a bulk write of the digits of a byte, each of them is read back at its own offset (R108). -/
theorem memRead1_bulkWrite_bcdDigits (m : Memory) (a : Nat) (b : Byte) {k : Nat} (hk : k < (bcdDigits b).length) :
    (memRead1 (bulkWrite m a (bcdDigits b)) (a + k)).toNat = (bcdDigits b)[k] := by
  have hlen : (bcdDigits b).length ≤ memSize := by simp [bcdDigits, memSize]
  have hdigit := bcdDigits_lt_ten b _ (List.getElem_mem hk)
  rw [memRead1_bulkWrite_of_length_le m a hlen hk, BitVec.toNat_ofNat]
  omega

/-- LD B,Vx replaces memory by a bulk write of the digits of `V[x]` at `I`, and nothing else (R108). -/
theorem exec_ldBVx (x : Reg) (s : State) :
    exec (.ldBVx x) s = .next (s.setMem (bulkWrite s.mem s.dataBase (bcdDigits (s.getV x)))) := rfl

/-- Settles O30, digit by digit. -/
theorem ldBStoresDigits : Obligations.LdBStoresDigits := by
  intro x s
  have digit {k : Nat} (hk : k < 3) := memRead1_bulkWrite_bcdDigits s.mem s.dataBase (s.getV x) (k := k) hk
  have written := (exec_writesOnly _ s).of_next (exec_ldBVx x s)
  exact ⟨encodedAs_encode rfl, _, exec_ldBVx x s,
    digit (k := 0) (by decide), digit (k := 1) (by decide), digit (k := 2) (by decide),
    s.setMem_bulkWrite_memSameOutside s.dataBase (bcdDigits (s.getV x)), written.regs, written.frame⟩

/-- Settles O31. -/
theorem storeRegistersAtI : Obligations.StoreRegistersAtI := by
  intro x s
  have written := (exec_writesOnly _ s).of_next (exec_ldMemVx x s)
  exact ⟨encodedAs_encode rfl, _, exec_ldMemVx x s, fun _ => memRead1_bulkWrite_regBytes s.mem s.dataBase s,
    s.regBytes_length x ▸ s.setMem_bulkWrite_memSameOutside _ _, written.regs, written.frame⟩

/-! ## The load -/

/-- LD Vx,[I] transfers `x + 1` bytes at `I` into the registers (R110). -/
theorem exec_ldVxMem (x : Reg) (s : State) :
    exec (.ldVxMem x) s = .next (s.loadRegs s.dataBase (x.toNat + 1)) := rfl

/-- Settles O32: at most sixteen registers are loaded, and no part of the state beside them is written. -/
theorem loadRegistersFromI : Obligations.LoadRegistersFromI := by
  intro x s
  have written := (exec_writesOnly _ s).of_next (exec_ldVxMem x s)
  refine ⟨encodedAs_encode rfl, _, exec_ldVxMem x s, fun r => ?_, written.frame⟩
  simpa only [Nat.lt_succ_iff] using s.getV_loadRegs s.dataBase (x.toNat + 1) x.isLt r

end Sys2Proof.Machine
end

section
/-! The display (spec/44_display.md): CLS clears it once; DRW's requests toggle pixels one by one, from which follow
the pixels after it, its collision flag, and that drawing again undoes the drawing. -/

namespace Sys2Proof.Machine

/-! ## CLS -/

/-- CLS replaces the display by the cleared one, and nothing else (R116). -/
theorem exec_cls (s : State) : exec .cls s = .next (s.setDisplay s.display.clear) := rfl

/-- After `clear()` every pixel is off (R147). -/
theorem Display.pixel_clear (d : Display) (a b : Nat) : d.clear.pixel a b = false := by
  have row : d.clear.fb.getD b [] = (d.fb.getD b []).map fun _ => false :=
    List.getD_map _ [] (List.map fun _ => false)
  rw [Display.pixel, row]
  exact List.getD_map _ false fun _ => false

/-- Settles O34. -/
theorem clsClearsOnce : Obligations.ClsClearsOnce := by
  intro s
  have written := (exec_writesOnly _ s).of_next (exec_cls s)
  exact ⟨encodedAs_encode rfl, _, exec_cls s, rfl, s.display.pixel_clear, written.regs, written.frame⟩

/-! ## One request -/

/-- Row `b` of the frame buffer; a place outside the frame buffer holds no row (log 11). -/
def Display.row (d : Display) (b : Nat) : List Bool := d.fb.getD b []

theorem Display.pixel_eq_row (d : Display) (a b : Nat) : d.pixel a b = (d.row b).getD a false := rfl

/-- The frame buffer holds a pixel at column `a`, row `b`. -/
def Display.Covers (d : Display) (a b : Nat) : Prop := a < (d.row b).length

/-- A display of its declared size holds every pixel within it (R147). -/
theorem State.displayShaped.covers {s : State} (h : s.displayShaped) {a b : Nat} (ha : a < s.cfg.displayW)
    (hb : b < s.cfg.displayH) : s.display.Covers a b := by
  obtain ⟨hrows, hcols⟩ := h
  have hb' : b < s.display.fb.length := hrows ▸ hb
  rw [Display.Covers, Display.row, List.getD_eq_getElem _ _ hb', hcols _ (List.getElem_mem hb')]
  exact ha

/-- A modification by what changes nothing. -/
theorem modify_of_forall_eq {α : Type} {f : α → α} (h : ∀ x, f x = x) (l : List α) (i : Nat) : l.modify i f = l := by
  rw [show f = id from funext h, List.modify_id]

/-- `fb` with the request's bit XORed into its pixel. -/
def xorPixel (fb : List (List Bool)) (p : PixelReq) : List (List Bool) :=
  fb.modify p.y (·.modify p.x (· != p.on))

/-- A request XORs its bit into the frame buffer: a 1 turns the pixel over, a 0 changes nothing (R147). -/
theorem Display.setPixel_fb (d : Display) (p : PixelReq) : (d.setPixel p).2.fb = xorPixel d.fb p := by
  cases hon : p.on with
  | true => simp [Display.setPixel, Display.toggled, xorPixel, hon]
  | false =>
    have same : xorPixel d.fb p = d.fb :=
      modify_of_forall_eq (fun row => modify_of_forall_eq (fun b => by rw [hon, Bool.bne_false]) row _) ..
    rw [same, Display.setPixel, hon]
    rfl

/-- A request touches its own row alone, in its own column. -/
theorem Display.row_setPixel (d : Display) (p : PixelReq) (b : Nat) :
    (d.setPixel p).2.row b = if p.y = b then (d.row b).modify p.x (· != p.on) else d.row b := by
  simp only [Display.row, Display.setPixel_fb, xorPixel, List.getD_eq_getElem?_getD, List.getElem?_modify]
  cases d.fb[b]? <;> simp

theorem Display.covers_setPixel (d : Display) (p : PixelReq) (a b : Nat) :
    (d.setPixel p).2.Covers a b ↔ d.Covers a b := by
  rw [Display.Covers, Display.row_setPixel]
  split
  · rw [List.length_modify, Display.Covers]
  · rfl

/-- The request turns over the pixel at column `a`, row `b`. -/
def PixelReq.flips (p : PixelReq) (a b : Nat) : Bool := p.on && p.x == a && p.y == b

/-- A pixel after a request is the old pixel XOR whether the request turns it over (R147). -/
theorem Display.pixel_setPixel {d : Display} {a b : Nat} (h : d.Covers a b) (p : PixelReq) :
    (d.setPixel p).2.pixel a b = (d.pixel a b != p.flips a b) := by
  have ha : a < (d.row b).length := h
  rw [Display.pixel_eq_row, Display.row_setPixel, Display.pixel_eq_row, PixelReq.flips]
  split
  next hy =>
    rw [List.getD_eq_getElem _ _ (by rwa [List.length_modify]), List.getD_eq_getElem _ _ ha, List.getElem_modify]
    split
    next hx => simp [hx, hy]
    next hx => simp [beq_false_of_ne hx]
  next hy => simp [beq_false_of_ne hy]

/-! ## A sequence of requests -/

theorem flips_cons (p : PixelReq) (ps : List PixelReq) (a b : Nat) :
    flips (p :: ps) a b = flips ps a b + if p.flips a b then 1 else 0 :=
  List.countP_cons

theorem litAfter_nil (d : Display) (a b : Nat) : litAfter d [] a b = d.pixel a b := by
  simp [litAfter, flips]

/-- The first of the requests may be taken as done: one more flip is one more XOR with 1. -/
theorem litAfter_cons {d : Display} {a b : Nat} (h : d.Covers a b) (p : PixelReq) (ps : List PixelReq) :
    litAfter d (p :: ps) a b = litAfter (d.setPixel p).2 ps a b := by
  rw [litAfter, litAfter, Display.pixel_setPixel h, flips_cons, Bool.bne_assoc]
  congr 1
  cases p.flips a b with
  | false => simp
  | true =>
    rw [if_pos rfl, Bool.true_bne, ← decide_not, decide_eq_decide]
    omega

/-- After the requests each pixel is the old one XOR every 1 bit drawn there (R117). -/
theorem Display.pixel_draw {d : Display} {a b : Nat} (h : d.Covers a b) (c : Bool) (ps : List PixelReq) :
    (d.draw c ps).2.pixel a b = litAfter d ps a b := by
  induction ps generalizing d c with
  | nil => exact (litAfter_nil d a b).symm
  | cons p rest ih =>
    rw [litAfter_cons h, Display.draw, ih ((d.covers_setPixel p a b).mpr h)]

theorem not_collides_nil (d : Display) : ¬ Collides d [] := by
  rintro ⟨before, p, after, e, -⟩
  exact List.append_ne_nil_of_right_ne_nil _ (List.cons_ne_nil p after) e.symm

/-- The first request collides, or one of the rest does on the display it leaves. -/
theorem collides_cons_iff {d : Display} {p : PixelReq} {ps : List PixelReq}
    (h : ∀ q ∈ ps, d.Covers q.x q.y) :
    Collides d (p :: ps) ↔ (d.setPixel p).1 = true ∨ Collides (d.setPixel p).2 ps := by
  constructor
  · rintro ⟨before, q, after, e, hon, hlit⟩
    cases before with
    | nil =>
      obtain ⟨rfl, rfl⟩ := List.cons.inj e
      exact .inl (by rw [litAfter_nil] at hlit; simp [Display.setPixel, hon, hlit])
    | cons r before =>
      obtain ⟨rfl, rfl⟩ := List.cons.inj e
      rw [litAfter_cons (h q (by simp))] at hlit
      exact .inr ⟨before, q, after, rfl, hon, hlit⟩
  · rintro (hit | ⟨before, q, after, rfl, hon, hlit⟩)
    · obtain ⟨hon, hlit⟩ := Bool.and_eq_true_iff.mp hit
      exact ⟨[], p, ps, rfl, hon, (litAfter_nil d p.x p.y).trans hlit⟩
    · rw [← litAfter_cons (h q (by simp))] at hlit
      exact ⟨p :: before, q, after, rfl, hon, hlit⟩

/-- The flag of a sequence of requests is set if it was before, or if one of them collides (R117). -/
theorem Display.draw_flag_iff {d : Display} {ps : List PixelReq} (h : ∀ p ∈ ps, d.Covers p.x p.y) (c : Bool) :
    (d.draw c ps).1 = true ↔ c = true ∨ Collides d ps := by
  induction ps generalizing d c with
  | nil => simp [Display.draw, not_collides_nil]
  | cons p rest ih =>
    obtain ⟨-, hrest⟩ := List.forall_mem_cons.mp h
    have hrest' : ∀ q ∈ rest, (d.setPixel p).2.Covers q.x q.y := fun q hq =>
      (d.covers_setPixel p q.x q.y).mpr (hrest q hq)
    rw [Display.draw, ih hrest', collides_cons_iff hrest, Bool.or_eq_true, or_assoc]

/-! ## The requests of DRW -/

/-- The model's requests are those of R117's pseudocode: bit `k` of a byte is its quotient by `2 ^ k` modulo 2. -/
theorem State.spritePixels_eq_spriteRequests (s : State) (x y : Reg) (n : Nibble) :
    s.spritePixels x y n = spriteRequests s x y n := by
  simp only [State.spritePixels, spriteRequests, rowPixels, BitVec.getLsbD, Nat.testBit_eq_decide_div_mod_eq]

/-- Eight requests for each of the `n` rows (R117). -/
theorem spriteRequests_length (s : State) (x y : Reg) (n : Nibble) :
    (spriteRequests s x y n).length = 8 * n.toNat := by
  simp [spriteRequests, List.length_flatMap, Nat.mul_comm]

/-- Wrapped coordinates lie within the display (R117). -/
theorem spriteRequests_covers {s : State} (hd : s.displayShaped) (hw : 0 < s.cfg.displayW)
    (hh : 0 < s.cfg.displayH) (x y : Reg) (n : Nibble) :
    ∀ p ∈ spriteRequests s x y n, s.display.Covers p.x p.y := by
  simp only [spriteRequests, List.forall_mem_flatMap, List.forall_mem_map]
  exact fun _ _ _ _ => hd.covers (Nat.mod_lt _ hw) (Nat.mod_lt _ hh)

/-- The state DRW leaves: the requests are done, and `VF` holds the flag (R117). -/
def State.drawn (s : State) (x y : Reg) (n : Nibble) : State :=
  (s.setDisplay (s.display.draw false (spriteRequests s x y n)).2).setV vf
    (flagByte (s.display.draw false (spriteRequests s x y n)).1)

theorem exec_drw (x y : Reg) (n : Nibble) (s : State) : exec (.drw x y n) s = .next (s.drawn x y n) := by
  rw [State.drawn, ← State.spritePixels_eq_spriteRequests]
  rfl

/-- Well-formed parameters give the display positive dimensions (log 11). -/
theorem Config.display_pos_of_wf {c : Config} (h : c.wf = true) : 0 < c.displayW ∧ 0 < c.displayH := by
  simp only [Config.wf, Bool.and_eq_true, decide_eq_true_eq] at h
  omega

/-- `VF` after DRW, whatever `x` and `y` are (R117). -/
theorem State.getV_vf_drawn (s : State) (x y : Reg) (n : Nibble) :
    (s.drawn x y n).getV vf = flagByte (s.display.draw false (spriteRequests s x y n)).1 :=
  State.getV_setV_same ..

/-- Settles O35: the flag starts clear, and every request is within the display. -/
theorem drwXorsAndFlagsCollision : Obligations.DrwXorsAndFlagsCollision := by
  intro x y n s hd hwf
  obtain ⟨hw, hh⟩ := Config.display_pos_of_wf hwf
  have inside := spriteRequests_covers hd hw hh x y n
  have flag : (s.display.draw false (spriteRequests s x y n)).1 = true ↔
      Collides s.display (spriteRequests s x y n) := by
    simpa using Display.draw_flag_iff inside false
  have written := (exec_writesOnly _ s).of_next (exec_drw x y n s)
  refine ⟨encodedAs_encode rfl, spriteRequests_length s x y n, _, exec_drw x y n s, Display.draw_calls ..,
    fun a b ha hb => Display.pixel_draw (hd.covers ha hb) .., fun hc => ?_, fun hc => ?_, written.regs, written.frame⟩
  · rw [State.getV_vf_drawn, flag.mpr hc]
    rfl
  · rw [State.getV_vf_drawn, Bool.eq_false_iff.mpr (mt flag.mp hc)]
    rfl

/-! ## Drawing twice -/

/-- The frame buffer after a sequence of requests. -/
theorem Display.draw_fb (d : Display) (c : Bool) (ps : List PixelReq) :
    (d.draw c ps).2.fb = ps.foldl xorPixel d.fb := by
  induction ps generalizing d c with
  | nil => rfl
  | cons p rest ih => rw [Display.draw, ih, Display.setPixel_fb, List.foldl_cons]

/-- Modifications of a list by functions that commute do so, at one place or at two. -/
theorem modify_comm_of_commute {α : Type} {f g : α → α} (h : g ∘ f = f ∘ g) (l : List α) (i j : Nat) :
    (l.modify i f).modify j g = (l.modify j g).modify i f := by
  by_cases hij : i = j
  · rw [hij, List.modify_modify_eq, List.modify_modify_eq, h]
  · exact List.modify_modify_ne f g l hij

/-- Two requests come to the same in either order. -/
theorem xorPixel_comm (fb : List (List Bool)) (p q : PixelReq) :
    xorPixel (xorPixel fb p) q = xorPixel (xorPixel fb q) p := by
  have pixel : ((· != q.on) ∘ (· != p.on)) = ((· != p.on) ∘ (· != q.on)) :=
    funext fun b => Bool.xor_right_comm b _ _
  exact modify_comm_of_commute (funext fun row => modify_comm_of_commute pixel row ..) ..

/-- A request undoes itself. -/
theorem xorPixel_self (fb : List (List Bool)) (p : PixelReq) : xorPixel (xorPixel fb p) p = fb := by
  have pixel (b : Bool) : ((· != p.on) ∘ (· != p.on)) b = b := by simp
  rw [xorPixel, xorPixel, List.modify_modify_eq]
  refine modify_of_forall_eq (fun row => ?_) ..
  rw [Function.comp, List.modify_modify_eq]
  exact modify_of_forall_eq pixel ..

/-- A sequence of requests undoes itself: the first one moves past the rest and cancels. -/
theorem foldl_xorPixel_self (fb : List (List Bool)) (ps : List PixelReq) :
    ps.foldl xorPixel (ps.foldl xorPixel fb) = fb := by
  induction ps generalizing fb with
  | nil => rfl
  | cons p rest ih =>
    have past : rest.foldl xorPixel (xorPixel fb p) = xorPixel (rest.foldl xorPixel fb) p :=
      List.foldl_hom (xorPixel · p) fun fb q => xorPixel_comm fb p q
    rw [List.foldl_cons, List.foldl_cons, past, xorPixel_self, ih]

/-- Where neither coordinate is `VF`, DRW changes nothing that its own requests depend on (R117). -/
theorem spriteRequests_drawn {x y : Reg} (hx : x ≠ vf) (hy : y ≠ vf) (n : Nibble) (s : State) :
    spriteRequests (s.drawn x y n) x y n = spriteRequests s x y n := by
  have keeps {r : Reg} (hr : r ≠ vf) : (s.drawn x y n).getV r = s.getV r := State.getV_setV_ne _ _ hr
  rw [spriteRequests, keeps hx, keeps hy]
  rfl

theorem State.drawn_fb (s : State) (x y : Reg) (n : Nibble) :
    (s.drawn x y n).display.fb = (spriteRequests s x y n).foldl xorPixel s.display.fb :=
  Display.draw_fb ..

/-- Settles O36: the second DRW issues the same requests, and a sequence of requests undoes itself. -/
theorem drawTwiceRestoresDisplay : Obligations.DrawTwiceRestoresDisplay := by
  intro x y n s hx hy _ _
  refine ⟨_, exec_drw x y n s, _, exec_drw x y n _, ?_⟩
  change ((s.drawn x y n).drawn x y n).display.fb = s.display.fb
  rw [State.drawn_fb, spriteRequests_drawn hx hy, State.drawn_fb, foldl_xorPixel_self]

end Sys2Proof.Machine
end

section
/-! Timer and key instructions (spec/45_timers_keys.md): the reads and writes of the timers, the skips on a key and
the wait for a key, each with its word, the one key sample it draws, and what it leaves alone. -/

namespace Sys2Proof.Machine

/-! ## Timers -/

/-- Settles O37. -/
theorem ldVxDTReadsTimer : Obligations.LdVxDTReadsTimer := fun _ _ =>
  ⟨encodedAs_encode rfl, runs_setV rfl (State.getV_setV_same ..)⟩

/-- LD DT,Vx replaces the delay timer and nothing else (R122). -/
theorem exec_ldDTVx (x : Reg) (s : State) : exec (.ldDTVx x) s = .next (s.setDT (s.getV x)) := rfl

/-- LD ST,Vx replaces the sound timer and nothing else (R123). -/
theorem exec_ldSTVx (x : Reg) (s : State) : exec (.ldSTVx x) s = .next (s.setST (s.getV x)) := rfl

/-- Settles O38: each of the two has its own timer as its row of R23. -/
theorem timerLoadsWriteOneTimer : Obligations.TimerLoadsWriteOneTimer := by
  intro x s
  have delay := (exec_writesOnly _ s).of_next (exec_ldDTVx x s)
  have sound := (exec_writesOnly _ s).of_next (exec_ldSTVx x s)
  exact ⟨encodedAs_encode rfl, encodedAs_encode rfl,
    ⟨_, exec_ldDTVx x s, rfl, delay.regs, delay.frame⟩,
    ⟨_, exec_ldSTVx x s, rfl, sound.regs, sound.frame⟩⟩

/-! ## The key sample -/

/-- Sampling the key lines writes the input side alone, wherever it may be written (R148). -/
theorem State.sampledKeys_writesOnly (s : State) {rs : List Reg} {ps : List Part} (hp : .inputs ∈ ps) :
    WritesOnly rs ps s s.sampledKeys :=
  WritesOnly.refl.setInputs hp

/-- Sampling the key lines draws exactly one sample (R148). -/
theorem State.sampledKeys_oneKeySample (s : State) : OneKeySample s s.sampledKeys := rfl

/-! ## The skips on a key -/

/-- An instruction that samples the key lines and skips where `c` holds, whatever the sample is (R124, R125). -/
theorem runs_sampledKeys_skipIf {i : Instr} {s : State} {c : Bool}
    (h : exec i s = .next (s.sampledKeys.skipIf c)) :
    Runs i s (fun t => t.pc.toNat = (if c then (s.pc.toNat + 2) % 65536 else s.pc.toNat) ∧
      OneKeySample s t ∧ RegsSameBut [] s t ∧ Frame [.pc, .inputs] s t) := by
  have written : WritesOnly [] [.pc, .inputs] s (s.sampledKeys.skipIf c) :=
    (s.sampledKeys_writesOnly (by simp)).skipIf (by simp)
  exact ⟨_, h, s.sampledKeys.skipIf_pc_toNat c, (s.sampledKeys.skipIf_inputs c).trans s.sampledKeys_oneKeySample,
    written.regs, written.frame⟩

/-- Settles O39: SKP skips where the key is down; SKNP has the two ways the other way round. -/
theorem skipOnKey : Obligations.SkipOnKey := by
  intro x s
  refine ⟨encodedAs_encode rfl, encodedAs_encode rfl, runs_sampledKeys_skipIf rfl, ?_⟩
  have skipsWhereUp := runs_sampledKeys_skipIf (i := .sknp x) (s := s) (c := !s.keyDown x) rfl
  simpa only [Bool.not_eq_true', ← Bool.not_eq_true, ite_not, State.keyDown, State.nibbleIndex] using skipsWhereUp

/-! ## The wait for a key -/

/-- The least key down is the one that is down with none below it (R121). -/
theorem leastKey_eq {keys : Keys} {k : Nat} (hk : k < 16) (hdown : keys.getLsbD k = true)
    (hleast : ∀ j, j < k → keys.getLsbD j = false) : leastKey keys = k := by
  obtain ⟨-, -, below, down⟩ := leastKeyFrom_spec keys 0 16
  obtain hlt | heq | hgt := lt_trichotomy (leastKey keys) k
  · exact absurd (down (hlt.trans hk)) (Bool.eq_false_iff.mp (hleast _ hlt))
  · exact heq
  · exact absurd hdown (Bool.eq_false_iff.mp (below k k.zero_le hgt))

/-- `pc - 2` is modulo 65536 (R13). -/
theorem pc_sub_two_toNat (w : Word) : (w - 2).toNat = (w.toNat + 65536 - 2) % 65536 := by
  bv_omega

/-- With no key down LD Vx,K samples the key lines and moves `pc` back onto itself (R121). -/
theorem exec_ldVxK_of_no_key {s : State} (h : s.keys = 0) (x : Reg) :
    exec (.ldVxK x) s = .next s.sampledKeys.retryPc :=
  congrArg _ (if_pos h)

/-- With key `k` the least one down LD Vx,K samples the key lines and puts `k` into `V[x]` (R121). -/
theorem exec_ldVxK_of_least_key {s : State} {k : Nat} (hk : k < 16) (hdown : s.keys.getLsbD k = true)
    (hleast : ∀ j, j < k → s.keys.getLsbD j = false) (x : Reg) :
    exec (.ldVxK x) s = .next (s.sampledKeys.setV x (BitVec.ofNat 8 k)) := by
  have hne : s.keys ≠ 0 := fun e => by simp [e] at hdown
  rw [← leastKey_eq hk hdown hleast]
  exact congrArg _ (if_neg hne)

/-- Settles O40: the wait with no key down, and with a least one. -/
theorem keyWaitRepeatsOrTakesLeast : Obligations.KeyWaitRepeatsOrTakesLeast := by
  intro x s
  refine ⟨encodedAs_encode rfl, fun hnone => ?_, fun k hk hdown hleast => ?_⟩
  · have written : WritesOnly [] [.pc, .inputs] s s.sampledKeys.retryPc :=
      (s.sampledKeys_writesOnly (by simp)).setPc (by simp)
    exact ⟨_, exec_ldVxK_of_no_key hnone x, pc_sub_two_toNat s.pc, s.sampledKeys_oneKeySample, written.regs,
      written.frame⟩
  · have written : WritesOnly [x] [.inputs] s (s.sampledKeys.setV x (BitVec.ofNat 8 k)) :=
      (s.sampledKeys_writesOnly (by simp)).setV (by simp)
    refine ⟨_, exec_ldVxK_of_least_key hk hdown hleast x, ?_, s.sampledKeys_oneKeySample, written.regs,
      written.frame⟩
    rw [State.getV_setV_same, BitVec.toNat_ofNat]
    omega

end Sys2Proof.Machine
end

section
/-! Exceptions and the host's side (spec/60_exceptions.md): when a step stops, which faults it raises and what they
leave, the count of the timers by `tick`, and the draws of the key lines and the random bytes. -/

namespace Sys2Proof.Machine

/-! ## When a step stops -/

/-- While a fault is latched the step answers it (R137; log 2). -/
theorem step_of_latched {s : State} {f : Fault} (hf : s.fault = some f) : step s = .fault f := by
  simp [step, hf]

/-- Every instruction completes (R134). -/
theorem exec_completes (i : Instr) (s : State) : ∃ t, exec i s = .next t :=
  (exec_writesOnly i s).imp fun _ => And.left

/-- While the latch is clear the step completes, with an instruction or with a raise (R134, R136). -/
theorem step_completes {s : State} (hf : s.fault = none) : ∃ t, step s = .next t := by
  cases ha : admitted s.cfg s.fetchWord with
  | some i => exact step_of_admitted hf ha ▸ exec_completes i s.advancePc
  | none => exact ⟨_, step_of_not_admitted hf ha⟩

/-- A step answers the latched fault, or the latch is clear and it completes; there is no third way (R134, R137). -/
theorem step_latched_or_completes (s : State) :
    (∃ f, s.fault = some f ∧ step s = .fault f) ∨ (s.fault = none ∧ ∃ t, step s = .next t) := by
  cases hf : s.fault with
  | some f => exact .inl ⟨f, rfl, step_of_latched hf⟩
  | none => exact .inr ⟨rfl, step_completes hf⟩

/-- Settles O44. -/
theorem latchedFaultStopsStep : Obligations.LatchedFaultStopsStep := by
  intro s f
  refine ⟨fun h => ?_, step_of_latched⟩
  obtain ⟨g, hg, e⟩ | ⟨-, t, e⟩ := step_latched_or_completes s <;> cases e.symm.trans h
  exact hg

/-- Settles O45. -/
theorem nothingElseStops : Obligations.NothingElseStops := by
  refine ⟨fun _ => step_completes, exec_completes, fun s r h => ?_⟩
  obtain ⟨g, -, e⟩ | ⟨-, t, e⟩ := step_latched_or_completes s <;> cases e.symm.trans h

/-! ## The faults a step raises -/

/-- Only RET and CALL have the latch in their rows of R23. -/
theorem eq_ret_or_call_of_fault_mem_partsOf {i : Instr} (hi : .fault ∈ partsOf i) :
    i = .ret ∨ ∃ nnn, i = .call nnn := by
  cases i with
  | ret => exact .inl rfl
  | call nnn => exact .inr ⟨nnn, rfl⟩
  | _ => simp [partsOf] at hi

/-- An instruction that sets a clear latch is RET on an empty stack or CALL on a full one, and does nothing else
(R132, R133, R136). -/
theorem exec_raises {i : Instr} {s t : State} {f : Fault} (hs : s.fault = none) (hx : exec i s = .next t)
    (ht : t.fault = some f) :
    t = s.raise f ∧
      ((f = .stackUnderflow ∧ i = .ret ∧ s.stack = []) ∨
       (f = .stackOverflow ∧ (∃ nnn, i = .call nnn) ∧ s.cfg.stackDepth = .entries s.stack.length)) := by
  by_cases hi : .fault ∈ partsOf i
  · obtain rfl | ⟨nnn, rfl⟩ := eq_ret_or_call_of_fault_mem_partsOf hi
    · cases (exec_ret s).symm.trans hx
      obtain ⟨hnil, e⟩ | ⟨l, w, -, e⟩ := s.returnFromCall_cases <;> rw [e] at ht ⊢
      · cases ht
        exact ⟨rfl, .inl ⟨rfl, rfl, hnil⟩⟩
      · cases hs.symm.trans ht
    · cases (exec_call nnn s).symm.trans hx
      obtain ⟨hfull, e⟩ | ⟨-, e⟩ := s.callTo_cases (immAddr nnn) <;> rw [e] at ht ⊢
      · cases ht
        exact ⟨rfl, .inr ⟨rfl, ⟨nnn, rfl⟩, hfull⟩⟩
      · cases hs.symm.trans ht
  · have kept : t.fault = s.fault := ((exec_writesOnly i s).of_next hx).fault hi
    simp [kept, hs] at ht

/-- A step that sets the latch is the fetch increment and then the raise, in one of three cases (R130, R136). -/
theorem step_raises {s t : State} {f : Fault} (hx : step s = .next t) (ht : t.fault = some f) :
    t = s.advancePc.raise f ∧
      ((f = .unrecognizedOpcode s.fetchWord ∧ admitted s.cfg s.fetchWord = none) ∨
       (f = .stackUnderflow ∧ admitted s.cfg s.fetchWord = some .ret ∧ s.stack = []) ∨
       (f = .stackOverflow ∧ (∃ nnn, admitted s.cfg s.fetchWord = some (.call nnn)) ∧
         s.cfg.stackDepth = .entries s.stack.length)) := by
  obtain ⟨hs, ⟨i, ha, hi⟩ | ⟨ha, rfl⟩⟩ := step_cases hx
  · obtain ⟨e, ⟨hf, rfl, hnil⟩ | ⟨hf, ⟨nnn, rfl⟩, hfull⟩⟩ := exec_raises (s := s.advancePc) hs hi ht
    · exact ⟨e, .inr (.inl ⟨hf, ha, hnil⟩)⟩
    · exact ⟨e, .inr (.inr ⟨hf, ⟨nnn, ha⟩, hfull⟩)⟩
  · cases ht
    exact ⟨rfl, .inl ⟨rfl, ha⟩⟩

/-- Settles O46: the increment writes `pc` and the raise the latch. -/
theorem faultsAreThreeAndPrecise : Obligations.FaultsAreThreeAndPrecise := by
  intro s t f _ hx ht
  obtain ⟨rfl, three⟩ := step_raises hx ht
  have written : WritesOnly [] [.pc, .fault] s (s.advancePc.raise f) :=
    (s.advancePc_writesOnly (by simp)).raise (by simp)
  exact ⟨s.advancePc_pc_toNat, written.regs, written.frame, three⟩

/-! ## The timers -/

/-- The first `tick` sets the origin (R142). -/
theorem tick_of_no_origin {s : State} (h : s.tickOrigin = none) (t : Nat) : tick t s = s.setTick (some t) 0 := by
  simp [tick, h]

/-- A timestamp before the origin changes nothing (R142). -/
theorem tick_of_lt_origin {s : State} {o t : Nat} (h : s.tickOrigin = some o) (ht : t < o) : tick t s = s := by
  simp [tick, h, ht]

/-- A timestamp with no new whole period changes nothing (R142). -/
theorem tick_of_periods_le {s : State} {o t : Nat} (h : s.tickOrigin = some o)
    (hp : periods s.cfg o t ≤ s.ticksDone) : tick t s = s := by
  simp [tick, h, hp]

/-- Counting down by no period, with the count of periods as it was, changes nothing. -/
theorem State.countDownBoth_zero_setTick {s : State} {o : Nat} (h : s.tickOrigin = some o) :
    (s.countDownBoth 0).setTick (some o) s.ticksDone = s := by
  have zero (b : Byte) : countDown b 0 = b := BitVec.eq_of_toNat_eq (countDown_toNat b 0)
  rw [State.countDownBoth, zero, zero, ← h]
  rfl

/-- A timestamp from the origin on, with no period of the count missing, brings the timers and the count up to it:
with no new period that is no change (R142). -/
theorem tick_of_ticksDone_le {s : State} {o t : Nat} (h : s.tickOrigin = some o) (ht : o ≤ t)
    (hp : s.ticksDone ≤ periods s.cfg o t) :
    tick t s = (s.countDownBoth (periods s.cfg o t - s.ticksDone)).setTick (some o) (periods s.cfg o t) := by
  obtain heq | hlt := hp.eq_or_lt
  · rw [tick_of_periods_le h heq.ge, ← heq, Nat.sub_self, State.countDownBoth_zero_setTick h]
  · simp [tick, h, ht.not_gt, hlt.not_ge]

/-- Settles O58, case by case of R142. -/
theorem tickCountsDown : Obligations.TickCountsDown := by
  intro s t _
  refine ⟨fun hnone => ?_, fun o ho => ⟨tick_of_lt_origin ho, fun _ => tick_of_periods_le ho, fun ht hnew => ?_⟩⟩
  · have written : WritesOnly [] [.tick] s (s.setTick (some t) 0) := WritesOnly.refl.setTick (by simp)
    rw [tick_of_no_origin hnone]
    exact ⟨rfl, rfl, written.regs, written.frame⟩
  · have written := tick_writesOnly t s
    have counted := tick_of_ticksDone_le ho ht hnew.le
    refine ⟨?_, ?_, ?_, ?_, written.regs, written.frame⟩ <;> rw [counted]
    · exact countDown_toNat s.dt _
    · exact countDown_toNat s.st _
    · rfl
    · rfl

/-- Counting down twice is counting down by the sum, whatever the bookkeeping is between. -/
theorem State.countDownBoth_setTick_countDownBoth (s : State) (j k : Nat) (o p : Option Nat) (m n : Nat) :
    (((s.countDownBoth j).setTick o m).countDownBoth k).setTick p n = (s.countDownBoth (j + k)).setTick p n :=
  congrArg₂ (fun d b => ((s.setDT d).setST b).setTick p n) (countDown_countDown s.dt j k)
    (countDown_countDown s.st j k)

/-- Settles O59: a tick on the way changes nothing, or counts periods down that the later tick counts from there. -/
theorem tickOnTheWayIsLost : Obligations.TickOnTheWayIsLost := by
  intro s o t1 t2 _ ho h12
  obtain ht | ht := Nat.lt_or_ge t1 o
  · rw [tick_of_lt_origin ho ht]
  obtain hp | hp := Nat.le_total (periods s.cfg o t1) s.ticksDone
  · rw [tick_of_periods_le ho hp]
  have mono : periods s.cfg o t1 ≤ periods s.cfg o t2 := periods_mono s.cfg o h12
  have sum : periods s.cfg o t1 - s.ticksDone + (periods s.cfg o t2 - periods s.cfg o t1) =
      periods s.cfg o t2 - s.ticksDone := by omega
  rw [tick_of_ticksDone_le ho ht hp, tick_of_ticksDone_le rfl (ht.trans h12) mono,
    State.countDownBoth_setTick_countDownBoth, tick_of_ticksDone_le ho (ht.trans h12) (hp.trans mono), ← sum]
  rfl

/-! ## The draws -/

/-- An instruction that samples the key lines takes one sample from the input side (R148). -/
theorem runs_afterKeys {x : Reg} {i : Instr} (hi : i ∈ [Instr.skp x, .sknp x, .ldVxK x]) (s : State) :
    Runs i s (fun t => t.inputs = s.inputs.afterKeys) := by
  simp only [List.mem_cons, List.not_mem_nil, or_false] at hi
  obtain rfl | rfl | rfl := hi
  · exact ⟨_, rfl, State.skipIf_inputs ..⟩
  · exact ⟨_, rfl, State.skipIf_inputs ..⟩
  · refine ⟨_, rfl, ?_⟩
    split <;> rfl

/-- RND masks the random byte and takes it from the input side (R103, R149). -/
theorem runs_rnd (x : Reg) (kk : Byte) (s : State) :
    Runs (.rnd x kk) s (fun t => t.getV x = s.randomByte &&& kk ∧ t.inputs = s.inputs.afterRandom) :=
  ⟨_, exec_rnd x kk s, State.getV_setV_same .., rfl⟩

/-- Settles O41: each queue with an injected value and without one, and the rows with no draw. -/
theorem drawsTakenOnlyWhenAsked : Obligations.DrawsTakenOnlyWhenAsked := by
  refine ⟨fun x s k rest hq => ⟨?_, fun i hi => ?_⟩, fun x s hq => ⟨?_, fun i hi => ?_⟩,
    fun x kk s b rest hq => ?_, fun x kk s hq => ⟨?_, ?_⟩, fun i s hi => ?_⟩
  · simp [State.keys, Inputs.keys, hq]
  · simpa [Inputs.afterKeys, hq] using runs_afterKeys hi s
  · simp [State.keys, Inputs.keys, hq]
  · simpa [Inputs.afterKeys, hq] using runs_afterKeys hi s
  · simpa [State.randomByte, Inputs.randomByte, Inputs.afterRandom, hq] using runs_rnd x kk s
  · simp [State.randomByte, Inputs.randomByte, hq]
  · simpa [State.randomByte, Inputs.randomByte, Inputs.afterRandom, hq] using runs_rnd x kk s
  · obtain ⟨t, ht, written⟩ := exec_writesOnly i s
    exact ⟨t, ht, written.inputs hi⟩

end Sys2Proof.Machine
end

section
/-! Reset and loading (spec/70_reset_and_hazards.md): what each cell reads as after construction and after `load`,
and the reset state as construction with the default parameters. -/

namespace Sys2Proof.Machine

/-- A byte list written in bulk is read back unmasked where no later byte goes over it (R36). -/
theorem memRead1_bulkWrite_bytes (m : Memory) (a : Nat) {bytes : List Byte} {k : Nat} (hk : k < bytes.length)
    (hlast : bytes.length ≤ k + memSize) : memRead1 (bulkWrite m a (bytes.map BitVec.toNat)) (a + k) = bytes[k] := by
  rw [memRead1_bulkWrite_last m a _ k (by simpa using hk), List.getElem_map, BitVec.ofNat_toNat, BitVec.setWidth_eq]
  intro j hkj hj
  rw [List.length_map] at hj
  exact ea_add_ne a hkj (by omega)

/-- A read after the bulk write of a byte list, outside the bytes written (R36). -/
theorem State.setMem_bulkWrite_bytes_memSameOutside (s : State) (a : Nat) (bytes : List Byte) :
    MemSameOutside a bytes.length s (s.setMem (bulkWrite s.mem a (bytes.map BitVec.toNat))) :=
  List.length_map BitVec.toNat ▸ s.setMem_bulkWrite_memSameOutside a (bytes.map BitVec.toNat)

/-! ## Construction -/

/-- Step (1) of R161 puts the fill in every cell. -/
theorem memRead1_filledMemory (fill : Byte) {a : Nat} (ha : a < memSize) : memRead1 (filledMemory fill) a = fill := by
  have hread := memRead1_bulkWrite_bytes [] 0 (bytes := List.replicate memSize fill) (k := a)
    (by rwa [List.length_replicate]) (by rw [List.length_replicate]; omega)
  rwa [List.map_replicate, Nat.zero_add, List.getElem_replicate] at hread

/-- After construction a cell holds its byte of the font table, or the fill where the table has none (R161). -/
theorem construct_read1 {c : Config} (hc : c.fontTable.length ≤ memSize) (d : Display) (inp : Inputs) {a : Nat}
    (ha : a < memSize) : (construct c d inp).read1 a = c.fontTable.getD a c.resetMemFill := by
  obtain hfont | hfill := Nat.lt_or_ge a c.fontTable.length
  · rw [List.getD_eq_getElem _ _ hfont, ← memRead1_bulkWrite_bytes (filledMemory c.resetMemFill) fontBase hfont
      (by omega), fontBase, Nat.zero_add]
    rfl
  · have hout : ∀ k, k < c.fontTable.length → ea a ≠ ea (fontBase + k) := fun k hk => by
      rw [Nat.zero_add, ea, ea, Nat.mod_eq_of_lt ha, Nat.mod_eq_of_lt (by omega)]
      omega
    rw [List.getD_eq_default _ _ hfill, ← memRead1_filledMemory c.resetMemFill ha]
    exact memRead1_bulkWrite_outside _ _ _ _ (by rwa [List.length_map])

theorem construct_getV (c : Config) (d : Display) (inp : Inputs) (r : Reg) :
    (construct c d inp).getV r = c.resetV := by
  simp [State.getV]

theorem Config.fontTable_length_le_of_wf {c : Config} (h : c.wf = true) : c.fontTable.length ≤ memSize := by
  simp only [Config.wf, Bool.and_eq_true, decide_eq_true_eq] at h
  exact h.2

/-- Settles O55: every element beside memory is set as it stands, and memory is read cell by cell. -/
theorem constructionState : Obligations.ConstructionState := by
  intro c d inp hwf
  have hc := Config.fontTable_length_le_of_wf hwf
  refine ⟨rfl, rfl, rfl, rfl, rfl, construct_getV c d inp, rfl, rfl, rfl, rfl, rfl, rfl, fun a h => ?_,
    fun a hfill ha => ?_⟩
  · rw [construct_read1 hc d inp (h.trans_le hc), List.getD_eq_getElem _ _ h]
  · rw [construct_read1 hc d inp ha, List.getD_eq_default _ _ hfill]

/-- With the default parameters every cell holds its reset contents, so the canonical memory lists none. -/
theorem construct_default_mem (d : Display) (inp : Inputs) : (construct Config.default d inp).mem = [] := by
  refine Memory.ext (construct_mem_wf ..) nil_wf fun a ha => ?_
  rw [← memRead1_of_lt _ ha]
  exact construct_read1 (by decide) d inp ha

/-- Settles O56, element by element: all but memory are set as they stand. -/
theorem defaultConstructionIsReset : Obligations.DefaultConstructionIsReset := by
  have hmem := construct_default_mem (Display.initial Config.default) Inputs.initial
  rw [Obligations.DefaultConstructionIsReset, State.reset, State.mk.injEq]
  exact ⟨rfl, rfl, rfl, rfl, rfl, rfl, rfl, hmem, rfl, rfl, rfl, rfl, rfl⟩

/-! ## Loading a program -/

/-- `load` writes memory only (R164). -/
theorem load_writesOnly (bytes : List Byte) (s : State) : WritesOnly [] [.mem] s (load bytes s) :=
  WritesOnly.refl.setMem (by simp)

/-- Settles O57. -/
theorem loadWritesMemoryOnly : Obligations.LoadWritesMemoryOnly := fun bytes s =>
  ⟨fun _ => memRead1_bulkWrite_bytes s.mem programOrigin,
    s.setMem_bulkWrite_bytes_memSameOutside programOrigin bytes,
    (load_writesOnly bytes s).regs, (load_writesOnly bytes s).frame⟩

end Sys2Proof.Machine
end

section
/-! The sample words of spec/95_test_vectors.md section 2.1: a recognised word is decoded as the encoding of its
instruction, any other as a row of R60's table. -/

namespace Sys2Proof

theorem decodeWord_of_encode_eq {i : Instr} {w : Word} (he : encode i = w) (hw : i.wf = true) :
    decodeWord w = .instr i :=
  he ▸ decodeOfEncode i hw

theorem MatchesNoRow.decodeWord_eq {w : Word} (h : MatchesNoRow w) : decodeWord w = .unrecognised w :=
  (decodeWord_eq_unrecognised_iff w w).mpr ⟨rfl, h⟩

/-- Settles O4: eleven words are the encodings of their instructions, and four are in R60's table, each in the
disjunct of its class. -/
theorem sampleWordsDecode : Obligations.SampleWordsDecode := by
  have class5 : MatchesNoRow 0x5AB1 := .inl (by decide)
  have class8 : MatchesNoRow 0x8AB8 := .inr (.inl (by decide))
  have class9 : MatchesNoRow 0x9AB5 := .inr (.inr (.inl (by decide)))
  have classF : MatchesNoRow 0xF000 := .inr (.inr (.inr (.inr (by decide))))
  refine ⟨?_, ?_, ?_, ?_, ?_, ?_, class5.decodeWord_eq, ?_, class8.decodeWord_eq, ?_, class9.decodeWord_eq,
    ?_, ?_, ?_, classF.decodeWord_eq⟩
  all_goals exact decodeWord_of_encode_eq (by decide) (by decide)

end Sys2Proof
end
